-- ==== Sys2Proof/Word.lean ====
section
/-! DEFINITION. The value types of the block (00_scope.md R6, R7, R10): bytes, sizes and host paths. -/

namespace Sys2Proof

/-- A byte is 8 bits, unsigned (R6). -/
abbrev Byte := BitVec 8

/-- A size or position value of the block: `W = 64` bits, unsigned (R7; log entry 1). -/
abbrev Word := BitVec 64

/-- A host path string (opcode_table.json: `in_path`, `out_path`; log entry 12). -/
abbrev Path := String

end Sys2Proof
end

