-- ==== Sys2Proof/Syntax.lean ====
section
/-! DEFINITION. The operations of the block and of its host: one constructor per row of spec/opcode_table.json. -/

namespace Sys2Proof

/-- The three formats of the opcode table (30_encoding.md R82). -/
inductive Format where
  | cmd
  | ustep
  | pseudo
  deriving DecidableEq, Repr

/-- The fourteen operations (30_encoding.md R82): two commands, ten micro-operations, two host pseudo-operations. -/
inductive Instr where
  /-- `ENCODE in_len, out_cap` (R75, R93). -/
  | encode (inLen outCap : Word)
  /-- `DECODE in_len, out_cap` (R75, R94). -/
  | decode (inLen outCap : Word)
  /-- `IDLE_WAIT` (R91). -/
  | idleWait
  /-- `ENC_FETCH` (R112). -/
  | encFetch
  /-- `ENC_COUNT` (R113). -/
  | encCount
  /-- `ENC_EMIT_V` (R114). -/
  | encEmitV
  /-- `ENC_EMIT_C` (R115). -/
  | encEmitC
  /-- `DEC_READ_V` (R142). -/
  | decReadV
  /-- `DEC_READ_C` (R143). -/
  | decReadC
  /-- `DEC_CHECK` (R144). -/
  | decCheck
  /-- `DEC_EXPAND` (R145). -/
  | decExpand
  /-- `DONE_HOLD` (R92). -/
  | doneHold
  /-- `COMPRESS in_path, out_path` (R175). -/
  | compress (inPath outPath : Path)
  /-- `DECOMPRESS in_path, out_path` (R176). -/
  | decompress (inPath outPath : Path)
  deriving DecidableEq, Repr

/-- The format of an operation's row in the opcode table (R82). -/
def Instr.format : Instr → Format
  | .encode _ _ => .cmd
  | .decode _ _ => .cmd
  | .idleWait => .ustep
  | .encFetch => .ustep
  | .encCount => .ustep
  | .encEmitV => .ustep
  | .encEmitC => .ustep
  | .decReadV => .ustep
  | .decReadC => .ustep
  | .decCheck => .ustep
  | .decExpand => .ustep
  | .doneHold => .ustep
  | .compress _ _ => .pseudo
  | .decompress _ _ => .pseudo

end Sys2Proof
end

