-- ==== Sys2Proof/WellFormed.lean ====
section
/-! DEFINITION. Which operations are well-formed. Every command and micro-operation is (30_encoding.md R76, R79: none is
illegal, none reserved). A host sequence names two paths. -/

namespace Sys2Proof

/-- A path a host can open: a host string that is not empty. PRESUMED, safe (log entry 21). -/
def pathOk (p : Path) : Bool := p ≠ ""

/-- The well-formed operations. `exec` does not rest on it: it gives every operation its meaning. -/
def Instr.wellFormed : Instr → Bool
  | .encode _ _ => true
  | .decode _ _ => true
  | .idleWait => true
  | .encFetch => true
  | .encCount => true
  | .encEmitV => true
  | .encEmitC => true
  | .decReadV => true
  | .decReadC => true
  | .decCheck => true
  | .decExpand => true
  | .doneHold => true
  | .compress p q => pathOk p && pathOk q
  | .decompress p q => pathOk p && pathOk q

end Sys2Proof
end

