-- ==== Sys2Proof/Decode.lean ====
section
/-! DEFINITION. Decoding and encoding (30_encoding.md R75-R79, R82). The command word and the fsm code are bits on wires
and in a register; the byte framing of both is the model's own (log entry 10). -/

namespace Sys2Proof

/-- Why bits are no operation. -/
inductive DecodeError where
  /-- An fsm code from 10 to 15 names no state (R78). -/
  | reservedState (code : BitVec 4)
  /-- Fewer bytes than the format has. -/
  | tooShort
  /-- A bit outside the field of the format is set (log entry 10). -/
  | strayBits
  /-- A pseudo-operation has no bits (R82). -/
  | noBits
  deriving DecidableEq, Repr

/-- `n` bytes of `v`, least significant first. -/
def leBytes : Nat → Nat → List Byte
  | 0, _ => []
  | n + 1, v => BitVec.ofNat 8 v :: leBytes n (v / 256)

/-- The number whose bytes these are, least significant first. -/
def leValue : List Byte → Nat
  | [] => 0
  | b :: bs => b.toNat + 256 * leValue bs

/-- The micro-operation a 4-bit fsm code selects (R77). Codes 10 to 15 name none (R78). -/
def decodeUstep (code : BitVec 4) : Except DecodeError Instr :=
  match code.toNat with
  | 0 => .ok .idleWait
  | 1 => .ok .encFetch
  | 2 => .ok .encCount
  | 3 => .ok .encEmitV
  | 4 => .ok .encEmitC
  | 5 => .ok .decReadV
  | 6 => .ok .decReadC
  | 7 => .ok .decCheck
  | 8 => .ok .decExpand
  | 9 => .ok .doneHold
  | _ => .error (.reservedState code)

/-- The command of a command word `{out_cap, in_len, op}`, `op` at bit 0 (R75). Both values of `op` are legal, so
every word is a command (R76). -/
def decodeCmd (w : BitVec 129) : Instr :=
  if w.extractLsb' 0 1 = 0#1 then .encode (w.extractLsb' 1 64) (w.extractLsb' 65 64)
  else .decode (w.extractLsb' 1 64) (w.extractLsb' 65 64)

/-- The command word `{out_cap, in_len, op}` (R75). -/
def cmdWord (op : BitVec 1) (inLen outCap : Word) : BitVec 129 := outCap ++ inLen ++ op

/-- How many bytes hold one word of a format: 129 bits in 17 bytes, 4 bits in one (log entry 10). -/
def Format.bytes : Format → Nat
  | .cmd => 17
  | .ustep => 1
  | .pseudo => 0

/-- Decode the first word of a format from its bytes, bit 0 the least significant bit of the first byte, and give the
bytes that follow it. -/
def decode (f : Format) (bs : List Byte) : Except DecodeError (Instr × List Byte) :=
  match f with
  | .pseudo => .error .noBits
  | .ustep =>
    match bs with
    | [] => .error .tooShort
    | b :: rest =>
      if b.toNat < 16 then
        match decodeUstep (BitVec.ofNat 4 b.toNat) with
        | .ok i => .ok (i, rest)
        | .error e => .error e
      else .error .strayBits
  | .cmd =>
    if bs.length < Format.bytes .cmd then .error .tooShort
    else
      let v := leValue (bs.take (Format.bytes .cmd))
      if v < 2 ^ 129 then .ok (decodeCmd (BitVec.ofNat 129 v), bs.drop (Format.bytes .cmd))
      else .error .strayBits

/-- The bytes of a command word. -/
def encodeCmd (op : BitVec 1) (inLen outCap : Word) : List Byte :=
  leBytes (Format.bytes .cmd) (cmdWord op inLen outCap).toNat

/-- The bytes of an operation: the command word of R75, the code of R77; a pseudo-operation has none (R82). -/
def encode : Instr → Option (List Byte)
  | .encode n c => some (encodeCmd 0 n c)
  | .decode n c => some (encodeCmd 1 n c)
  | .idleWait => some [0]
  | .encFetch => some [1]
  | .encCount => some [2]
  | .encEmitV => some [3]
  | .encEmitC => some [4]
  | .decReadV => some [5]
  | .decReadC => some [6]
  | .decCheck => some [7]
  | .decExpand => some [8]
  | .doneHold => some [9]
  | .compress _ _ => none
  | .decompress _ _ => none

/-- The format of a table word (log entry 9), by the number of bits the table gives its row: the CMD rows fix one bit and a
whole command word has 129, a USTEP row fixes four. Word values 0 and 1 given as one byte name both a command and a
micro-operation; a byte below 16 is read as an fsm code, any other as the low byte of a command word. -/
def tableFormat (nbits w : Nat) : Format :=
  if nbits = 0 then .pseudo
  else if nbits = 1 then .cmd
  else if nbits ≤ 8 ∧ w < 16 then .ustep
  else .cmd

/-- The operation the decoder reads from a table word. -/
def decodeTableWord (nbits w : Nat) : Option Instr :=
  match decode (tableFormat nbits w) (leBytes (tableFormat nbits w).bytes w) with
  | .ok (i, _) => some i
  | .error _ => none

end Sys2Proof
end

