-- ==== Sys2Proof/Config.lean ====
section
/-! DEFINITION. What the spec fixes for one machine (00_scope.md R6, R8) and the values the model picks where the
spec leaves one open. No rule leaves a result undefined (60_exceptions.md R206); the one free value is what a byte of a
buffer holds before it is written (10_state.md R40). -/

namespace Sys2Proof

/-- The largest count of one Pair (R6). -/
def Config.countMax : Byte := 255

/-- The size of one Pair in bytes (R6). -/
def Config.pairBytes : Word := 2

/-- The size of the container's header in bytes (R8). -/
def Config.hdrBytes : Nat := 8

/-- The two byte orders a container header can have (R174). -/
inductive HdrOrder where
  | little
  | big
  deriving DecidableEq, Repr

/-- `HDR_ORDER` (R8, R174; conflict C1): little-endian. DESIGN CHOICE of the spec (D17), log entry 17. -/
def Config.hdrOrder : HdrOrder := .little

/-- The two buffer spaces (20_memory.md R50). -/
inductive Space where
  | inp
  | out
  deriving DecidableEq, Repr

/-- What the byte at an index of a buffer space holds when nothing has written it: a free value (log entry 3), since a
model must not assume any byte of either space (R40, U21). -/
opaque Config.unwrittenByte : Space → Nat → Byte

end Sys2Proof
end

