-- ==== Sys2Proof/Machine/State.lean ====
section
/-! DEFINITION. The state of the system: the block's twelve registers, the two buffer spaces, the command ports and the
host (10_state.md R20, R35, R37; 43_host_container.md), and the state after reset (R40). -/

namespace Sys2Proof.Machine

/-- The ten sequencer states (R21). -/
inductive Fsm where
  | idle
  | encFetch
  | encCount
  | encEmitV
  | encEmitC
  | decReadV
  | decReadC
  | decCheck
  | decExpand
  | done
  deriving DecidableEq, Repr

/-- The contents of a buffer space (R37, R50): the bytes written since power-up, by index, indices strictly rising
(log entry 3). -/
abbrev Memory := List Host.Cell

/-- The levels on the host's command ports in the coming step (R35). -/
structure Ports where
  rst : Bool
  start : Bool
  op : BitVec 1
  inLen : Word
  outCap : Word
  deriving DecidableEq, Repr

/-- The error kinds of the source, as the diagnostics a host prints (R180). -/
inductive Diagnostic where
  | inputUnreadable
  | malformedContainer
  | capacityExceeded
  | sizeMismatch
  | badUsage
  deriving DecidableEq, Repr

/-- Which host sequence waits for `done`, with what its last steps need (R175 steps 4 to 6, R176 steps 6 to 9). -/
inductive HostPhase where
  | idle
  | compress (outPath : Path) (rawLen : Nat)
  | decompress (outPath : Path) (expected : Word)
  deriving DecidableEq, Repr

/-- What the host may do between two steps of the block (R182, R183). -/
inductive HostMove where
  /-- Put levels on the command ports. -/
  | drive (p : Ports)
  /-- Write one byte of `IN`. -/
  | writeIn (a : Word) (v : Byte)
  /-- Write one byte of `OUT`. -/
  | writeOut (a : Word) (v : Byte)
  /-- Copy `OUT[0..written)` to `IN[0..written)`. -/
  | copyBack
  /-- Start the sequence `COMPRESS`. -/
  | compress (inPath outPath : Path)
  /-- Start the sequence `DECOMPRESS`. -/
  | decompress (inPath outPath : Path)
  /-- Run the program `rle` with these arguments (R179). -/
  | commandLine (args : List String)
  deriving DecidableEq, Repr

/-- The host: what drives the ports and owns the buffers when the block does not (R15, R182). -/
structure HostState where
  phase : HostPhase
  /-- The moves still to make, oldest first: the model's own field (log entry 4). -/
  script : List HostMove
  files : List (Path × List Byte)
  /-- The paths `write_whole_file` fails on (R178). -/
  unwritable : List Path
  /-- The diagnostics printed, oldest first. -/
  diags : List Diagnostic
  exitCode : Option Nat
  deriving DecidableEq, Repr

/-- The whole state (R20, R37). Field names are the spec's, in Lean's spelling: `inp` is `IN`, `out` is `OUT`. -/
structure State where
  fsm : Fsm
  opr : BitVec 1
  len : Word
  cap : Word
  rpos : Word
  wpos : Word
  runVal : Byte
  runCnt : Byte
  pairVal : Byte
  pairCnt : Byte
  expRem : Byte
  capExceeded : Bool
  inp : Memory
  out : Memory
  ports : Ports
  host : HostState
  deriving DecidableEq, Repr

/-- Why the system stops. -/
inductive Fault where
  /-- `write_whole_file` failed: raised by the host's last step of `COMPRESS` and `DECOMPRESS` on a path that cannot be
  written. The source calls it a fatal condition (R178), and nothing is claimed after it (U5). Safe. -/
  | hostWriteFailed
  deriving DecidableEq, Repr

/-- Why an operation has no outcome in the model. -/
inductive Refusal where
  /-- No meaning yet. Raised by no arm of `exec`. Safe. -/
  | notModelled (mnemonic : String)
  /-- A host sequence begun while the host does not own the buffers: raised by `COMPRESS` and `DECOMPRESS` while the block
  is busy or another sequence waits. The host has no such move (R61, U27). Safe. -/
  | buffersNotOwned
  /-- The input is 2^64 bytes or longer, which no command operand can say: raised by `COMPRESS` and `DECOMPRESS`
  (R126 and R156 ask for less than 2^W bytes; log entry 14). Safe. -/
  | inputTooLong
  /-- `fsm` holds a code that names no state (R78, U25): raised by the fetch of a micro-operation; no value of the
  enumerated `fsm` has such a code, so no step raises it. Safe. -/
  | reservedState
  deriving DecidableEq, Repr

/-- What an operation answers. -/
abbrev Result := Host.Outcome State Fault Refusal

/-- The command ports with nothing driven: every level 0. DESIGN CHOICE (log entry 5). -/
def Ports.quiet : Ports := { rst := false, start := false, op := 0, inLen := 0, outCap := 0 }

/-- A host with no files and nothing to do. DESIGN CHOICE (log entry 5). -/
def HostState.quiet : HostState :=
  { phase := .idle, script := [], files := [], unwritable := [], diags := [], exitCode := none }

/-- The state after reset: the twelve registers as R40 says; the buffers with nothing written (log entry 3); the ports and
the host quiet (log entry 5). -/
def State.reset : State :=
  { fsm := .idle, opr := 0, len := 0, cap := 0, rpos := 0, wpos := 0, runVal := 0, runCnt := 0, pairVal := 0,
    pairCnt := 0, expRem := 0, capExceeded := false, inp := [], out := [], ports := Ports.quiet,
    host := HostState.quiet }

end Sys2Proof.Machine
end

