-- ==== Sys2Proof/Machine/Ops.lean ====
section
/-! DEFINITION. The named operations over the buffers and the registers: reading and writing a byte (20_memory.md R55,
R56), entering a sequencer state, taking the one exception and what ends it (60_exceptions.md R203, R209), the reset
step (70_reset_and_hazards.md R230). -/

namespace Sys2Proof.Machine

/-- The canonical form: every index above `lo - 1`, indices strictly rising, all below 2^64. An unlisted index reads as a
free value, which no listed byte is known to equal (log entry 3). -/
def Memory.wfFrom (lo : Nat) : Memory → Bool
  | [] => true
  | (a, _) :: m => decide (lo ≤ a) && decide (a < 2 ^ 64) && Memory.wfFrom (a + 1) m

/-- The canonical form of a buffer space. -/
def Memory.wf (m : Memory) : Bool := Memory.wfFrom 0 m

/-- The byte at index `a` of a buffer space (R55). -/
def Memory.read (space : Space) : Memory → Nat → Byte
  | [], a => Config.unwrittenByte space a
  | (b, v) :: m, a => if a = b then v else Memory.read space m a

/-- The space with byte `v` at index `a` and every other byte as before (R56), in canonical form. -/
def Memory.write : Memory → Nat → Byte → Memory
  | [], a, v => [(a, v)]
  | (b, w) :: m, a, v =>
    if a < b then (a, v) :: (b, w) :: m
    else if a = b then (b, v) :: m
    else (b, w) :: Memory.write m a v

/-- The space with the bytes `bs` at `a`, `a + 1`, and on. -/
def Memory.writeBytes : Memory → Nat → List Byte → Memory
  | m, _, [] => m
  | m, a, b :: bs => Memory.writeBytes (Memory.write m a b) (a + 1) bs

/-- The bytes `[0..n)` of a buffer space. -/
def Memory.bytes (space : Space) (m : Memory) (n : Nat) : List Byte := (List.range n).map (fun i => Memory.read space m i)

/-- `MemRead(IN, a, 1)` (R11). -/
def State.readIn (s : State) (a : Word) : Byte := s.inp.read .inp a.toNat

/-- `MemWrite(OUT, a, 1, v)` (R11). -/
def State.writeOut (s : State) (a : Word) (v : Byte) : State := { s with out := s.out.write a.toNat v }

/-- `fsm <- f` (R11), the block's control transfer. -/
def State.goto (s : State) (f : Fsm) : State := { s with fsm := f }

/-- `raise CapacityExceeded` (R203): the flag is set, `DONE` is entered, and nothing else changes. -/
def State.raiseCapacityExceeded (s : State) : State := { s with capExceeded := true, fsm := .done }

/-- The accepting step of a command (R91): the operands are latched, the positions and the flag cleared, the datapath of
the command entered. It is also what ends a raised exception (R209). -/
def State.accept (s : State) (op : BitVec 1) (inLen outCap : Word) : State :=
  { s with
    opr := op, len := inLen, cap := outCap, rpos := 0, wpos := 0, capExceeded := false,
    fsm := if op = 0 then .encFetch else .decReadV }

/-- The reset step (R230): all twelve registers take the values of R40; the buffers are not touched. -/
def State.resetRegs (s : State) : State :=
  { s with
    fsm := .idle, opr := 0, len := 0, cap := 0, rpos := 0, wpos := 0, runVal := 0, runCnt := 0, pairVal := 0,
    pairCnt := 0, expRem := 0, capExceeded := false }

/-- The 4-bit code of a sequencer state (30_encoding.md R77). -/
def Fsm.code : Fsm → BitVec 4
  | .idle => 0
  | .encFetch => 1
  | .encCount => 2
  | .encEmitV => 3
  | .encEmitC => 4
  | .decReadV => 5
  | .decReadC => 6
  | .decCheck => 7
  | .decExpand => 8
  | .done => 9

end Sys2Proof.Machine
end

