-- ==== Sys2Proof/Machine/Operands.lean ====
section
/-! DEFINITION. The operand forms of the micro-operations: the bytes of `IN` they read, the room and the input left, the
places of `OUT` they store to (20_memory.md R51, R52). Size arithmetic is unsigned on 64 bits as R12 has it (log entry 2). -/

namespace Sys2Proof.Machine

/-- `zext_W(v)` (R10). -/
def zextW (v : Byte) : Word := v.setWidth 64

/-- The index of the byte after the run counted so far: `rpos + run_cnt` (R113). -/
def State.runEnd (s : State) : Word := s.rpos + zextW s.runCnt

/-- `IN[rpos]` (R112, R142). -/
def State.scanByte (s : State) : Byte := s.readIn s.rpos

/-- `IN[rpos + run_cnt]` (R113). -/
def State.runNextByte (s : State) : Byte := s.readIn s.runEnd

/-- `IN[rpos + 1]` (R143). -/
def State.countByte (s : State) : Byte := s.readIn (s.rpos + 1)

/-- `cap - wpos` (R114, R144). -/
def State.room (s : State) : Word := s.cap - s.wpos

/-- `len - rpos` (R142). -/
def State.inputLeft (s : State) : Word := s.len - s.rpos

/-- Where `ENC_EMIT_V` and `DEC_EXPAND` store: `wpos` (R114, R145). -/
def State.valueAddr (s : State) : Word := s.wpos

/-- Where `ENC_EMIT_C` stores: `wpos + 1` (R115). -/
def State.countAddr (s : State) : Word := s.wpos + 1

end Sys2Proof.Machine
end

