-- ==== Sys2Proof/Machine/Flags.lean ====
section
/-! DEFINITION. The block's outputs (10_state.md R34) and the conditions its flag `cap_exceeded` and its branches are
computed from (41_encoder.md R112-R114, 42_decoder.md R142, R144). -/

namespace Sys2Proof.Machine

/-- Whether a sequencer state is one of the eight busy states (R21). -/
def Fsm.busy : Fsm → Bool
  | .idle => false
  | .encFetch => true
  | .encCount => true
  | .encEmitV => true
  | .encEmitC => true
  | .decReadV => true
  | .decReadC => true
  | .decCheck => true
  | .decExpand => true
  | .done => false

/-- Output `busy` (R34). -/
def State.busy (s : State) : Bool := s.fsm.busy

/-- Output `done` (R34). -/
def State.done (s : State) : Bool := s.fsm == .done

/-- Output `written` (R34). -/
def State.written (s : State) : Word := s.wpos

/-- Input exhausted: `rpos = len` (R112). -/
def State.inputEnded (s : State) : Bool := s.rpos == s.len

/-- The run goes on (R113): the count is below 255, the next byte is inside the input, and it equals the run's value. -/
def State.runGoesOn (s : State) : Bool :=
  decide (s.runCnt < Config.countMax) && decide (s.runEnd < s.len) && (s.runNextByte == s.runVal)

/-- Fewer than two bytes of room: the encoder's capacity test fails (R114, R201). -/
def State.noRoomForPair (s : State) : Bool := decide (s.room < Config.pairBytes)

/-- Fewer than two bytes of payload are left (R142). -/
def State.noPairLeft (s : State) : Bool := decide (s.inputLeft < Config.pairBytes)

/-- The run of the Pair read does not fit: `zext_W(pair_cnt) > cap - wpos` (R144, R202). -/
def State.noRoomForRun (s : State) : Bool := decide (zextW s.pairCnt > s.room)

end Sys2Proof.Machine
end

