-- ==== Sys2Proof/Machine/Decoder.lean ====
section
/-! DEFINITION. The decoder's four micro-operations (42_decoder.md R142-R145). -/

namespace Sys2Proof.Machine

/-- `DEC_READ_V` (R142): end of payload, or read the value byte of the next Pair. -/
def execDecReadV (s : State) : Result :=
  if s.noPairLeft then .next (s.goto .done)
  else .next { s with pairVal := s.scanByte, fsm := .decReadC }

/-- `DEC_READ_C` (R143): read the count byte. -/
def execDecReadC (s : State) : Result :=
  .next { s with pairCnt := s.countByte, fsm := .decCheck }

/-- `DEC_CHECK` (R144): the capacity check for the whole run; the Pair is consumed. -/
def execDecCheck (s : State) : Result :=
  if s.noRoomForRun then .next s.raiseCapacityExceeded
  else .next { s with expRem := s.pairCnt, rpos := s.rpos + 2, fsm := .decExpand }

/-- `DEC_EXPAND` (R145): one copy, or leave when none is left. -/
def execDecExpand (s : State) : Result :=
  if s.expRem = 0 then .next (s.goto .decReadV)
  else .next { s.writeOut s.valueAddr s.pairVal with wpos := s.wpos + 1, expRem := s.expRem - 1 }

end Sys2Proof.Machine
end

