-- ==== Sys2Proof/Machine/Encoder.lean ====
section
/-! DEFINITION. The encoder's four micro-operations (41_encoder.md R112-R115). -/

namespace Sys2Proof.Machine

/-- `ENC_FETCH` (R112): end of input, or load the current byte and count it. -/
def execEncFetch (s : State) : Result :=
  if s.inputEnded then .next (s.goto .done)
  else .next { s with runVal := s.scanByte, runCnt := 1, fsm := .encCount }

/-- `ENC_COUNT` (R113): count one more byte of the run, or close the run. -/
def execEncCount (s : State) : Result :=
  if s.runGoesOn then .next { s with runCnt := s.runCnt + 1 }
  else .next (s.goto .encEmitV)

/-- `ENC_EMIT_V` (R114): the capacity check, then the value byte. -/
def execEncEmitV (s : State) : Result :=
  if s.noRoomForPair then .next s.raiseCapacityExceeded
  else .next ((s.writeOut s.valueAddr s.runVal).goto .encEmitC)

/-- `ENC_EMIT_C` (R115): the count byte, then both positions advance. -/
def execEncEmitC (s : State) : Result :=
  .next
    { s.writeOut s.countAddr s.runCnt with
      wpos := s.wpos + 2, rpos := s.runEnd, fsm := .encFetch }

end Sys2Proof.Machine
end

