-- ==== Sys2Proof/Machine/Container.lean ====
section
/-! DEFINITION. The container (43_host_container.md R171-R174) and the operands the host computes from sizes (R181). -/

namespace Sys2Proof.Machine

/-- The eight header bytes of a size in a byte order (R174). -/
def headerBytes (order : HdrOrder) (size : Word) : List Byte :=
  match order with
  | .little => leBytes Config.hdrBytes size.toNat
  | .big => (leBytes Config.hdrBytes size.toNat).reverse

/-- The size that header bytes hold in a byte order (R174). -/
def headerValue (order : HdrOrder) (bytes : List Byte) : Word :=
  match order with
  | .little => BitVec.ofNat 64 (leValue bytes)
  | .big => BitVec.ofNat 64 (leValue bytes.reverse)

/-- The container of a payload: the size header, then the payload (R171). -/
def container (size : Word) (payload : List Byte) : List Byte := headerBytes Config.hdrOrder size ++ payload

/-- `original_size` of a container (R176 step 4). -/
def containerSize (bytes : List Byte) : Word := headerValue Config.hdrOrder (bytes.take Config.hdrBytes)

/-- The payload of a container (R176 step 4). -/
def containerPayload (bytes : List Byte) : List Byte := bytes.drop Config.hdrBytes

/-- The capacity `COMPRESS` hands to `ENCODE`: twice the raw size, or the largest value where that does not fit (R181). -/
def compressCapacity (rawLen : Nat) : Word :=
  if 2 * rawLen < 2 ^ 64 then BitVec.ofNat 64 (2 * rawLen) else BitVec.allOnes 64

end Sys2Proof.Machine
end

