-- ==== Sys2Proof/Machine/HostSide.lean ====
section
/-! DEFINITION. The host (43_host_container.md): its files and diagnostics (R178, R180), when it owns the buffers (R60,
R61, R182), the two sequences `COMPRESS` and `DECOMPRESS` (R175, R176), the command line (R179), and one turn of the host
after each step of the block. The host reaches the block only through the ports and the buffers (R170). -/

namespace Sys2Proof.Machine

/-- The contents of the file at a path, if there is one. -/
def findFile : List (Path × List Byte) → Path → Option (List Byte)
  | [], _ => none
  | (q, c) :: fs, p => if q = p then some c else findFile fs p

/-- The files with `bytes` at a path: an existing file is overwritten (R178). -/
def putFile : List (Path × List Byte) → Path → List Byte → List (Path × List Byte)
  | [], p, bytes => [(p, bytes)]
  | (q, c) :: fs, p, bytes => if q = p then (p, bytes) :: fs else (q, c) :: putFile fs p bytes

/-- Print a diagnostic. -/
def State.diagnose (s : State) (d : Diagnostic) : State :=
  { s with host := { s.host with diags := s.host.diags ++ [d] } }

/-- End a sequence or a command line with an exit code (R179); no sequence waits any more. -/
def State.finishWith (s : State) (code : Nat) : State :=
  { s with host := { s.host with phase := .idle, exitCode := some code } }

/-- `read_whole_file(path)` (R178): the bytes of the file; where it cannot be opened, no bytes and a diagnostic
(log entry 12). -/
def State.readWholeFile (s : State) (p : Path) : List Byte × State :=
  match findFile s.host.files p with
  | some c => (c, s)
  | none => ([], s.diagnose .inputUnreadable)

/-- `write_whole_file(path, bytes)` (R178): a failure is fatal (log entry 12). -/
def State.writeWholeFile (s : State) (p : Path) (bytes : List Byte) : Result :=
  if p ∈ s.host.unwritable then .fault .hostWriteFailed
  else .next { s with host := { s.host with files := putFile s.host.files p bytes } }

/-- The host owns `IN` and `OUT`: the block is not busy (R60, R182 (a)). What the host does in its turn is complete before
the step that may accept a command (R183; log entry 7). -/
def State.hostOwns (s : State) : Bool := !s.busy

/-- The host may begin a sequence: it owns the buffers and no other sequence waits (R177, R183). -/
def State.hostFree (s : State) : Bool := s.hostOwns && (s.host.phase == .idle)

/-- `IN[0..n) <- bytes` (R175 step 3, R176 step 5). -/
def State.loadIn (s : State) (bytes : List Byte) : State := { s with inp := s.inp.writeBytes 0 bytes }

/-- Put a command on the ports with `rst = 0` and `start = 1` (R234 steps 4 and 5). -/
def State.driveCommand (s : State) (op : BitVec 1) (inLen outCap : Word) : State :=
  { s with ports := { rst := false, start := true, op := op, inLen := inLen, outCap := outCap } }

/-- Wait for `done` (R175 step 4, R176 step 6). -/
def State.await (s : State) (phase : HostPhase) : State := { s with host := { s.host with phase := phase } }

/-- `COMPRESS` (R175), steps 1 to 4 up to the wait. Steps 5 and 6 are `finishCompress`, when `done` is 1. -/
def execCompress (inPath outPath : Path) (s : State) : Result :=
  if !s.hostFree then .refused .buffersNotOwned
  else
    let raw := (s.readWholeFile inPath).1
    let t := (s.readWholeFile inPath).2
    if raw = [] then .next (t.finishWith 0)
    else if 2 ^ 64 ≤ raw.length then .refused .inputTooLong
    else
      .next
        (((t.loadIn raw).driveCommand 0 (BitVec.ofNat 64 raw.length) (compressCapacity raw.length)).await
          (.compress outPath raw.length))

/-- `DECOMPRESS` (R176), steps 1 to 6 up to the wait. Steps 7 to 9 are `finishDecompress`, when `done` is 1. -/
def execDecompress (inPath outPath : Path) (s : State) : Result :=
  if !s.hostFree then .refused .buffersNotOwned
  else
    let c := (s.readWholeFile inPath).1
    let t := (s.readWholeFile inPath).2
    if c = [] then .next (t.finishWith 0)
    else if c.length < Config.hdrBytes then .next ((t.diagnose .malformedContainer).finishWith 0)
    else if 2 ^ 64 ≤ (containerPayload c).length then .refused .inputTooLong
    else
      .next
        (((t.loadIn (containerPayload c)).driveCommand 1 (BitVec.ofNat 64 (containerPayload c).length)
            (containerSize c)).await
          (.decompress outPath (containerSize c)))

/-- Print the capacity diagnostic if the block reports the condition (R180, R176 step 7). -/
def State.reportCapacity (s : State) : State := if s.capExceeded then s.diagnose .capacityExceeded else s

/-- The bytes of the result, `OUT[0..written)` (R182). -/
def State.resultBytes (s : State) : List Byte := s.out.bytes .out s.written.toNat

/-- R175 steps 5 and 6: the container is written whatever the status. -/
def finishCompress (outPath : Path) (rawLen : Nat) (s : State) : Result :=
  ((s.reportCapacity).finishWith 0).writeWholeFile outPath (container (BitVec.ofNat 64 rawLen) s.resultBytes)

/-- Print the size diagnostic if the result has another length than the header says (R176 step 8). -/
def State.reportSize (s : State) (expected : Word) : State :=
  if s.written ≠ expected then s.diagnose .sizeMismatch else s

/-- R176 steps 7 to 9: what was produced is written, with a diagnostic for each thing wrong. -/
def finishDecompress (outPath : Path) (expected : Word) (s : State) : Result :=
  (((s.reportCapacity).reportSize expected).finishWith 0).writeWholeFile outPath s.resultBytes

/-- What a command line asks for (R179). -/
inductive CommandLine where
  | compress (inPath outPath : Path)
  | decompress (inPath outPath : Path)
  | badUsage
  deriving DecidableEq, Repr

/-- The command line: `compress` or `decompress` with two paths; anything else is bad usage (R179). -/
def parseCommandLine (args : List String) : CommandLine :=
  match args with
  | [cmd, p, q] =>
    if cmd = "compress" then .compress p q
    else if cmd = "decompress" then .decompress p q
    else .badUsage
  | _ => .badUsage

/-- The state with the oldest move of the host taken off. -/
def State.popMove (s : State) (rest : List HostMove) : State := { s with host := { s.host with script := rest } }

/-- The state with the port levels driven, if that is the host's next move (R182 (c)). -/
def State.driveNext (s : State) : State :=
  match s.host.script with
  | .drive p :: rest => { s.popMove rest with ports := p }
  | _ => s

/-- An answer with the port levels driven after it, if that is the host's next move: a sequence and the levels of the ports
are independent, so that `rst` can be raised in the step that would accept the sequence's command too (R182 (c)). DESIGN
CHOICE, unsafe (log entry 23): levels driven right behind a sequence replace its command before the block samples it, also
with `rst = 0`; no rule says what becomes of the sequence then. -/
def thenDrive (r : Result) : Result :=
  match r with
  | .next t => .next t.driveNext
  | .fault e => .fault e
  | .refused e => .refused e

/-- The host makes one move of its script, or waits if the move needs buffers it does not own (log entry 6). -/
def hostMove (m : HostMove) (rest : List HostMove) (s : State) : Result :=
  match m with
  | .drive p => .next { s.popMove rest with ports := p }
  | .writeIn a v =>
    if s.hostOwns then .next { s.popMove rest with inp := s.inp.write a.toNat v } else .next s
  | .writeOut a v => if s.hostOwns then .next ((s.popMove rest).writeOut a v) else .next s
  | .copyBack => if s.hostOwns then .next ((s.popMove rest).loadIn s.resultBytes) else .next s
  | .compress p q => if s.hostOwns then thenDrive (execCompress p q (s.popMove rest)) else .next s
  | .decompress p q => if s.hostOwns then thenDrive (execDecompress p q (s.popMove rest)) else .next s
  | .commandLine args =>
    match parseCommandLine args with
    | .badUsage => .next (((s.popMove rest).diagnose .badUsage).finishWith 1)
    | .compress p q => if s.hostOwns then thenDrive (execCompress p q (s.popMove rest)) else .next s
    | .decompress p q => if s.hostOwns then thenDrive (execDecompress p q (s.popMove rest)) else .next s

/-- Lower `start` (R238: it is raised for exactly one step). -/
def State.lowerStart (s : State) : State := { s with ports := { s.ports with start := false } }

/-- The moves the host may make while a sequence waits: those that begin no sequence (R177). -/
def HostMove.plain : HostMove → Bool
  | .drive _ => true
  | .writeIn _ _ => true
  | .writeOut _ _ => true
  | .copyBack => true
  | .compress _ _ => false
  | .decompress _ _ => false
  | .commandLine _ => false

/-- What the host does beside a sequence that waits: its next move, if that begins no sequence. Driving the ports, `rst`
among them, needs no buffer (R182 (b), (c), R184). -/
def whileWaiting (s : State) : Result :=
  match s.host.script with
  | [] => .next s
  | m :: rest => if m.plain then hostMove m rest s else .next s

/-- The host's turn after a step of the block (log entry 7). A waiting sequence lowers `start` once the command has been
on the ports for one step, then polls `done` and finishes, and in every turn the host may drive the ports beside that;
with no sequence waiting the next move of the script is made. DESIGN CHOICE, unsafe (log entry 22): where `rst` ends the
operation a sequence waits for (R182 (c), R232), no rule says what the sequence does; it keeps waiting, and takes the next
`done`, be it that of a command driven later, as its own. DESIGN CHOICE, unsafe (log entry 23): it so takes an earlier
`done` too, where levels driven right behind the sequence kept the block in `DONE`. DESIGN CHOICE, unsafe (log entry 24):
a turn that finds `start` raised beside the wait (R238) only lowers it and fetches nothing, even if `done` is 1; the result
is fetched later, or lost to a further `start`. -/
def hostTurn (s : State) : Result :=
  match s.host.phase with
  | .idle =>
    match s.host.script with
    | [] => .next s
    | m :: rest => hostMove m rest s
  | .compress outPath rawLen =>
    if s.ports.start then whileWaiting s.lowerStart
    else if s.done then finishCompress outPath rawLen s.driveNext
    else whileWaiting s
  | .decompress outPath expected =>
    if s.ports.start then whileWaiting s.lowerStart
    else if s.done then finishDecompress outPath expected s.driveNext
    else whileWaiting s

end Sys2Proof.Machine
end

