-- ==== Sys2Proof/Machine/Sequencer.lean ====
section
/-! DEFINITION. The two commands and the two waiting micro-operations (40_sequencer.md R91-R94, R96). -/

namespace Sys2Proof.Machine

/-- A command given to the block: accepted in `IDLE` and `DONE` (R91, R92), lost in a busy state (R96). -/
def giveCommand (op : BitVec 1) (inLen outCap : Word) (s : State) : Result :=
  if s.busy then .next s else .next (s.accept op inLen outCap)

/-- `ENCODE` (R93): its accepting step. The micro-operations of the encoder do the rest. -/
def execEncode (inLen outCap : Word) (s : State) : Result := giveCommand 0 inLen outCap s

/-- `DECODE` (R94): its accepting step. The micro-operations of the decoder do the rest. -/
def execDecode (inLen outCap : Word) (s : State) : Result := giveCommand 1 inLen outCap s

/-- The pseudocode that R91 and R92 share: accept what the ports give if `start` is 1, else change nothing. -/
def waitForStart (s : State) : Result :=
  if s.ports.start then .next (s.accept s.ports.op s.ports.inLen s.ports.outCap) else .next s

/-- `IDLE_WAIT` (R91). -/
def execIdleWait (s : State) : Result := waitForStart s

/-- `DONE_HOLD` (R92). -/
def execDoneHold (s : State) : Result := waitForStart s

end Sys2Proof.Machine
end

