-- ==== Sys2Proof/Machine/Dispatch.lean ====
section
/-! DEFINITION. The meaning of every operation, one arm each. -/

namespace Sys2Proof.Machine

def exec (i : Instr) (s : State) : Host.Outcome State Fault Refusal :=
  match i with
  | .encode inLen outCap => Sys2Proof.Machine.execEncode inLen outCap s
  | .decode inLen outCap => Sys2Proof.Machine.execDecode inLen outCap s
  | .idleWait => Sys2Proof.Machine.execIdleWait s
  | .encFetch => Sys2Proof.Machine.execEncFetch s
  | .encCount => Sys2Proof.Machine.execEncCount s
  | .encEmitV => Sys2Proof.Machine.execEncEmitV s
  | .encEmitC => Sys2Proof.Machine.execEncEmitC s
  | .decReadV => Sys2Proof.Machine.execDecReadV s
  | .decReadC => Sys2Proof.Machine.execDecReadC s
  | .decCheck => Sys2Proof.Machine.execDecCheck s
  | .decExpand => Sys2Proof.Machine.execDecExpand s
  | .doneHold => Sys2Proof.Machine.execDoneHold s
  | .compress inPath outPath => Sys2Proof.Machine.execCompress inPath outPath s
  | .decompress inPath outPath => Sys2Proof.Machine.execDecompress inPath outPath s

end Sys2Proof.Machine
end

