-- ==== Sys2Proof/Machine/Clock.lean ====
section
/-! DEFINITION. One step of the block (40_sequencer.md R90): the reset step, or the micro-operation `fsm` selects; and
how a table word is placed so that the next step runs it. -/

namespace Sys2Proof.Machine

/-- The micro-operation of a step with `rst = 0`: selected by the code of `fsm` alone (R77). -/
def State.fetch (s : State) : Except DecodeError Instr := decodeUstep s.fsm.code

/-- One step of the block (R90). -/
def blockStep (s : State) : Result :=
  if s.ports.rst then .next s.resetRegs
  else
    match s.fetch with
    | .ok i => exec i s
    | .error _ => .refused .reservedState

/-- `k` steps of the block with the port levels held. -/
def blockRun : Nat → State → Result
  | 0, s => .next s
  | k + 1, s =>
    match blockStep s with
    | .next t => blockRun k t
    | .fault r => .fault r
    | .refused r => .refused r

/-- The state that selects a micro-operation (R77); none for the other operations. -/
def selectingState : Instr → Option Fsm
  | .idleWait => some .idle
  | .encFetch => some .encFetch
  | .encCount => some .encCount
  | .encEmitV => some .encEmitV
  | .encEmitC => some .encEmitC
  | .decReadV => some .decReadV
  | .decReadC => some .decReadC
  | .decCheck => some .decCheck
  | .decExpand => some .decExpand
  | .doneHold => some .done
  | .encode _ _ => none
  | .decode _ _ => none
  | .compress _ _ => none
  | .decompress _ _ => none

/-- The state ready to take a command from its ports: itself if it is in `IDLE` or `DONE`, else put in `IDLE`. -/
def State.ready (s : State) : State := if s.busy then s.goto .idle else s

/-- The state whose next step runs `i`, for the operations a table word can name (log entry 11): `fsm` selects a
micro-operation, with `rst` low; a command stands on the ports with `start` high. -/
def State.placed (s : State) (i : Instr) : State :=
  match i with
  | .encode n c => s.ready.driveCommand 0 n c
  | .decode n c => s.ready.driveCommand 1 n c
  | _ =>
    match selectingState i with
    | some f => { s.goto f with ports := { s.ports with rst := false } }
    | none => s

/-- The state with a table word placed; unchanged where the word is no operation. -/
def State.placedWord (s : State) (nbits w : Nat) : State :=
  match decodeTableWord nbits w with
  | some i => s.placed i
  | none => s

end Sys2Proof.Machine
end

