-- ==== Sys2Proof/Machine/Step.lean ====
section
/-! DEFINITION. One step of the system: a step of the block, then the host's turn (40_sequencer.md R90; log entry 7). -/

namespace Sys2Proof.Machine

/-- One step. -/
def step (s : State) : Host.Outcome State Fault Refusal :=
  match blockStep s with
  | .next t => hostTurn t
  | .fault r => .fault r
  | .refused r => .refused r

/-- The state with a table word placed where the next step runs it (log entry 11). -/
def State.withFetchWord (s : State) (nbits w : Nat) : State := s.placedWord nbits w

end Sys2Proof.Machine
end

