-- ==== Sys2Proof/Machine/BufferPorts.lean ====
section
/-! DEFINITION. The buffer ports (10_state.md R36) as functions of the state: the index of `IN` a step reads
(`in_re`, `in_addr`) and the index and byte of `OUT` it writes (`out_we`, `out_addr`, `out_wdata`), for a step with
`rst = 0`. At most one of each (20_memory.md R56). A reset step makes no access (R230). -/

namespace Sys2Proof.Machine

/-- The read of `IN` the micro-operation selected by `fsm` makes (R112, R113, R142, R143). -/
def State.inAccess (s : State) : Option Word :=
  match s.fsm with
  | .encFetch => if s.inputEnded then none else some s.rpos
  | .encCount => if s.runCnt < Config.countMax ∧ s.runEnd < s.len then some s.runEnd else none
  | .decReadV => if s.noPairLeft then none else some s.rpos
  | .decReadC => some (s.rpos + 1)
  | .idle => none
  | .encEmitV => none
  | .encEmitC => none
  | .decCheck => none
  | .decExpand => none
  | .done => none

/-- The write of `OUT` the micro-operation selected by `fsm` makes (R114, R115, R145). -/
def State.outAccess (s : State) : Option (Word × Byte) :=
  match s.fsm with
  | .encEmitV => if s.noRoomForPair then none else some (s.valueAddr, s.runVal)
  | .encEmitC => some (s.countAddr, s.runCnt)
  | .decExpand => if s.expRem = 0 then none else some (s.valueAddr, s.pairVal)
  | .idle => none
  | .encFetch => none
  | .encCount => none
  | .decReadV => none
  | .decReadC => none
  | .decCheck => none
  | .done => none

end Sys2Proof.Machine
end

