-- ==== Sys2Proof/Machine/Transform.lean ====
section
/-! DEFINITION. The transaction level: the pure functions `enc` (41_encoder.md R110) and `dec` (42_decoder.md R140) and
what the rules build from them. The micro-operations are written without them; R126 and R156 tie the two. -/

namespace Sys2Proof.Machine

/-- The status of a transform (R110, R140). -/
inductive Status where
  | ok
  | capacityExceeded
  deriving DecidableEq, Repr

/-- How many of the leading bytes equal `b`, at most `limit`: the inner loop of R110. -/
def matchingPrefix (b : Byte) : Nat → List Byte → Nat
  | 0, _ => 0
  | _ + 1, [] => 0
  | k + 1, x :: xs => if x = b then matchingPrefix b k xs + 1 else 0

/-- The outer loop of R110 on the input from `i` on, `out` being what is written so far. The first argument bounds the
passes: one per byte left is enough, since a pass consumes at least one. -/
def encLoop (cap : Nat) : Nat → List Byte → List Byte → List Byte × Status
  | 0, _, out => (out, .ok)
  | _ + 1, [], out => (out, .ok)
  | fuel + 1, b :: rest, out =>
    let more := matchingPrefix b 254 rest
    if cap - out.length < 2 then (out, .capacityExceeded)
    else encLoop cap fuel (rest.drop more) (out ++ [b, BitVec.ofNat 8 (more + 1)])

/-- `enc(S, cap)` (R110). -/
def enc (raw : List Byte) (cap : Nat) : List Byte × Status := encLoop cap raw.length raw []

/-- `full(S)` (R111): the encoding with room for every Pair. -/
def full (raw : List Byte) : List Byte := (enc raw (2 * raw.length)).1

/-- `P(S)` (R111): the number of Pairs of the full encoding. -/
def pairCount (raw : List Byte) : Nat := (full raw).length / 2

/-- The loop of R140 on the payload from `i` on, `out` being what is written so far. -/
def decLoop (cap : Nat) : List Byte → List Byte → List Byte × Status
  | v :: c :: rest, out =>
    if out.length + c.toNat ≤ cap then decLoop cap rest (out ++ List.replicate c.toNat v)
    else (out, .capacityExceeded)
  | _, out => (out, .ok)

/-- `dec(P, cap)` (R140). -/
def dec (payload : List Byte) (cap : Nat) : List Byte × Status := decLoop cap payload []

/-- The expansion of a payload's Pairs (R141, R150): each value as many times as its count says. -/
def expandPairs : List Byte → List Byte
  | v :: c :: rest => List.replicate c.toNat v ++ expandPairs rest
  | _ => []

end Sys2Proof.Machine
end

