-- ==== Sys2Proof/Safety.lean ====
section
/-! DEFINITION. What the rules say of every state a run reaches (10_state.md R27, 41_encoder.md R121, 42_decoder.md R150),
as predicates over a state, and the words the statements use. -/

namespace Sys2Proof.Machine

/-- The input of the operation, `IN[0..len)` (R23, R37). -/
def State.input (s : State) : List Byte := s.inp.bytes .inp s.len.toNat

/-- In every state of an encode: the command is `ENCODE` and `wpos` is even (R22, R121). -/
def State.EncInv (s : State) : Prop := s.opr = 0 ∧ s.wpos.toNat % 2 = 0

/-- In the states that hold a counted run: the count is at least 1, the run is inside the input, and every byte of it is
`run_val` (R121). -/
def State.RunInv (s : State) : Prop :=
  1 ≤ s.runCnt.toNat ∧ s.rpos.toNat + s.runCnt.toNat ≤ s.len.toNat ∧
    ∀ j, j < s.runCnt.toNat → s.inp.read .inp (s.rpos.toNat + j) = s.runVal

/-- In every state of a decode: the command is `DECODE` and `rpos` is even (R22, R150). -/
def State.DecInv (s : State) : Prop := s.opr = 1 ∧ s.rpos.toNat % 2 = 0

/-- In the states that hold a Pair not yet consumed: it is whole and `pair_val` is its value byte (R150). -/
def State.PairInv (s : State) : Prop :=
  s.rpos.toNat + 2 ≤ s.len.toNat ∧ s.pairVal = s.inp.read .inp s.rpos.toNat

/-- In `DEC_EXPAND`: the copies left fit, and the Pair expanded is the one before `rpos` (R150). -/
def State.ExpandInv (s : State) : Prop :=
  s.wpos.toNat + s.expRem.toNat ≤ s.cap.toNat ∧ s.expRem.toNat ≤ s.pairCnt.toNat ∧ 2 ≤ s.rpos.toNat ∧
    s.pairVal = s.inp.read .inp (s.rpos.toNat - 2) ∧ s.pairCnt = s.inp.read .inp (s.rpos.toNat - 1)

/-- What R121 and R150 say of each sequencer state. -/
def State.PhaseInv (s : State) : Prop :=
  match s.fsm with
  | .idle => True
  | .encFetch => s.EncInv
  | .encCount => s.EncInv ∧ s.RunInv
  | .encEmitV => s.EncInv ∧ s.RunInv
  | .encEmitC => s.EncInv ∧ s.RunInv ∧ s.wpos.toNat + 2 ≤ s.cap.toNat
  | .decReadV => s.DecInv
  | .decReadC => s.DecInv ∧ s.PairInv
  | .decCheck => s.DecInv ∧ s.PairInv ∧ s.pairCnt = s.inp.read .inp (s.rpos.toNat + 1)
  | .decExpand => s.DecInv ∧ s.ExpandInv
  | .done => True

/-- The invariant: the positions stay inside the buffers (R27), the flag is set only in `DONE` (R33, R203), the buffers
keep their canonical form, and each sequencer state keeps its facts (R121, R150). -/
structure State.Inv (s : State) : Prop where
  scan : s.rpos.toNat ≤ s.len.toNat
  write : s.wpos.toNat ≤ s.cap.toNat
  flag : s.capExceeded = true → s.fsm = .done
  inWf : s.inp.wf = true
  outWf : s.out.wf = true
  phase : s.PhaseInv

/-- `t` has the twelve registers of `s` (R20). -/
def State.sameRegs (s t : State) : Prop :=
  t.fsm = s.fsm ∧ t.opr = s.opr ∧ t.len = s.len ∧ t.cap = s.cap ∧ t.rpos = s.rpos ∧ t.wpos = s.wpos ∧
    t.runVal = s.runVal ∧ t.runCnt = s.runCnt ∧ t.pairVal = s.pairVal ∧ t.pairCnt = s.pairCnt ∧ t.expRem = s.expRem ∧
    t.capExceeded = s.capExceeded

/-- Every byte of both buffers reads in `t` as it reads in `s`. -/
def State.sameBuffers (s t : State) : Prop := ∀ a : Nat, t.inp.read .inp a = s.inp.read .inp a ∧ t.out.read .out a = s.out.read .out a

/-- The result an operation reports in `DONE`: `OUT[0..written)` and the flag (R97). -/
def State.result (s : State) : List Byte × Status :=
  (s.out.bytes .out s.written.toNat, if s.capExceeded then .capacityExceeded else .ok)

/-- The block is in `t` after `k` more steps, and `t` is the first state in `DONE` after `s` (R97). -/
def State.endsIn (s : State) (k : Nat) (t : State) : Prop :=
  blockRun k s = .next t ∧ t.fsm = .done ∧ ∀ j u, j < k → blockRun j s = .next u → u.fsm ≠ .done

end Sys2Proof.Machine
end

