-- ==== Sys2Proof/Certificates/Slice0/Obligations.lean ====
section
/-! DEFINITION. The statements for the provers, each about the rule of spec/ its docstring names. -/

open Sys2Proof Sys2Proof.Machine

/-! ## Reset, fetching, decoding -/

/-- R40, R231: the values after reset, and the outputs that follow from them. -/
def Obligations.ResetStateValues : Prop :=
  State.reset.fsm = .idle ∧ State.reset.opr = 0 ∧ State.reset.len = 0 ∧ State.reset.cap = 0 ∧ State.reset.rpos = 0 ∧
    State.reset.wpos = 0 ∧ State.reset.runVal = 0 ∧ State.reset.runCnt = 0 ∧ State.reset.pairVal = 0 ∧
    State.reset.pairCnt = 0 ∧ State.reset.expRem = 0 ∧ State.reset.capExceeded = false ∧ State.reset.busy = false ∧
    State.reset.done = false ∧ State.reset.written = 0

/-- R230: a step with `rst = 1` gives every register its reset value whatever the state and the other inputs, touches no
buffer, holds while `rst` is 1, and is followed by an ordinary `IDLE_WAIT` step. -/
def Obligations.ResetStepClearsEveryRegister : Prop :=
  ∀ s : State, s.ports.rst = true →
    ∃ t, blockStep s = .next t ∧ t.fsm = .idle ∧ t.opr = 0 ∧ t.len = 0 ∧ t.cap = 0 ∧ t.rpos = 0 ∧ t.wpos = 0 ∧
      t.runVal = 0 ∧ t.runCnt = 0 ∧ t.pairVal = 0 ∧ t.pairCnt = 0 ∧ t.expRem = 0 ∧ t.capExceeded = false ∧
      t.inp = s.inp ∧ t.out = s.out ∧ t.ports = s.ports ∧ t.host = s.host ∧
      (∀ k, blockRun (k + 1) s = .next t) ∧
      ∀ p : Ports, p.rst = false → blockStep { t with ports := p } = exec .idleWait { t with ports := p }

/-- R77, R82, R90: with `rst = 0` a step of the block is `exec` of the micro-operation that the code of `fsm`, as the
decoder reads it, selects; with `rst = 1` it is the reset step; the host's turn follows. -/
def Obligations.StepRunsTheSelectedMicroOperation : Prop :=
  ∀ s : State,
    (∀ i, s.ports.rst = false → decode .ustep [s.fsm.code.setWidth 8] = .ok (i, []) →
      blockStep s = exec i s ∧
        step s =
          (match exec i s with
            | .next t => hostTurn t
            | .fault r => .fault r
            | .refused r => .refused r)) ∧
      (s.ports.rst = true → step s = hostTurn s.resetRegs)

/-- R77: the table of the ten codes, and that nothing but `fsm` selects the micro-operation. R78, U25: codes 10 to 15 name no
state; that the decoder refuses them by name is the model's (log entries 10 and 20). -/
def Obligations.CodesSelectTheMicroOperations : Prop :=
  (Fsm.idle.code = 0 ∧ decodeUstep 0 = .ok .idleWait) ∧ (Fsm.encFetch.code = 1 ∧ decodeUstep 1 = .ok .encFetch) ∧
    (Fsm.encCount.code = 2 ∧ decodeUstep 2 = .ok .encCount) ∧ (Fsm.encEmitV.code = 3 ∧ decodeUstep 3 = .ok .encEmitV) ∧
    (Fsm.encEmitC.code = 4 ∧ decodeUstep 4 = .ok .encEmitC) ∧ (Fsm.decReadV.code = 5 ∧ decodeUstep 5 = .ok .decReadV) ∧
    (Fsm.decReadC.code = 6 ∧ decodeUstep 6 = .ok .decReadC) ∧ (Fsm.decCheck.code = 7 ∧ decodeUstep 7 = .ok .decCheck) ∧
    (Fsm.decExpand.code = 8 ∧ decodeUstep 8 = .ok .decExpand) ∧ (Fsm.done.code = 9 ∧ decodeUstep 9 = .ok .doneHold) ∧
    (∀ c : BitVec 4, 10 ≤ c.toNat → decodeUstep c = .error (.reservedState c) ∧ ∀ f : Fsm, f.code ≠ c) ∧
    ∀ s u : State, s.fsm = u.fsm → s.fetch = u.fetch

/-- R75, R77: words written out from the spec decode to what they stand for: the codes of `DEC_CHECK` and `DONE_HOLD`, the
command words of `ENCODE 4, 8` and `DECODE 4, 4`. -/
def Obligations.SpecWordsDecode : Prop :=
  decode .ustep [0x07] = .ok (.decCheck, []) ∧ decode .ustep [0x09] = .ok (.doneHold, []) ∧
    decode .cmd [0x08, 0, 0, 0, 0, 0, 0, 0, 0x10, 0, 0, 0, 0, 0, 0, 0, 0] = .ok (.encode 4 8, []) ∧
    decode .cmd [0x09, 0, 0, 0, 0, 0, 0, 0, 0x08, 0, 0, 0, 0, 0, 0, 0, 0] = .ok (.decode 4 4, [])

/-- R75, R77, R82: every well-formed operation that has bits is read back from its encoding, with every operand, whatever
bytes follow; a pseudo-operation has no encoding. -/
def Obligations.DecodeOfEncodeIsTheOperation : Prop :=
  ∀ i : Instr, i.wellFormed = true →
    (i.format ≠ .pseudo → ∃ bs, encode i = some bs ∧ bs.length = i.format.bytes ∧
      ∀ rest, decode i.format (bs ++ rest) = .ok (i, rest)) ∧
    (i.format = .pseudo → encode i = none ∧ ∀ bs, decode i.format bs = .error .noBits)

/-- R75, R76, R79: bytes that decode are the encoding of the operation they decode to: no two words mean the same. -/
def Obligations.DecodedBytesAreTheEncoding : Prop :=
  ∀ (f : Format) (bs rest : List Byte) (i : Instr), decode f bs = .ok (i, rest) →
    i.format = f ∧ ∃ ws, encode i = some ws ∧ bs = ws ++ rest

/-! ## The step relation -/

/-- R90: a step is total: the reset step with `rst = 1`, else the selected micro-operation, which always has a next state;
and a busy block never stays where it is. -/
def Obligations.EveryBlockStepHasANextState : Prop :=
  ∀ s : State, ∃ t, blockStep s = .next t ∧ (s.ports.rst = true → t = s.resetRegs) ∧
    (s.ports.rst = false → ∃ i, decodeUstep s.fsm.code = .ok i ∧ exec i s = .next t) ∧ (s.busy = true → t ≠ s)

/-- R91: `IDLE_WAIT`: its code, its two outcomes, and that it makes no access. -/
def Obligations.IdleWaitResult : Prop :=
  decodeUstep 0 = .ok .idleWait ∧
  ∀ s : State,
    (s.ports.start = true →
      exec .idleWait s =
        .next
          { s with
            opr := s.ports.op, len := s.ports.inLen, cap := s.ports.outCap, rpos := 0, wpos := 0, capExceeded := false,
            fsm := if s.ports.op = 0 then .encFetch else .decReadV }) ∧
      (s.ports.start = false → exec .idleWait s = .next s) ∧
      (s.fsm = .idle → s.inAccess = none ∧ s.outAccess = none)

/-- R92: `DONE_HOLD`: as `IDLE_WAIT`; and only reset leads from `DONE` to `IDLE`. -/
def Obligations.DoneHoldResult : Prop :=
  decodeUstep 9 = .ok .doneHold ∧
  ∀ s : State,
    (s.ports.start = true →
      exec .doneHold s =
        .next
          { s with
            opr := s.ports.op, len := s.ports.inLen, cap := s.ports.outCap, rpos := 0, wpos := 0, capExceeded := false,
            fsm := if s.ports.op = 0 then .encFetch else .decReadV }) ∧
      (s.ports.start = false → exec .doneHold s = .next s) ∧
      (s.fsm = .done → s.inAccess = none ∧ s.outAccess = none) ∧
      ∀ t, s.fsm = .done → blockStep s = .next t → t.fsm = .idle → s.ports.rst = true

/-- R75, R82, R91, R93, R94: a command given to a block that is not busy is accepted, and the command on the ports is what
a waiting micro-operation runs when `start` is 1. -/
def Obligations.CommandsAreAccepted : Prop :=
  ∀ s : State, s.busy = false →
    (∀ n c : Word,
      exec (.encode n c) s =
        .next
          { s with opr := 0, len := n, cap := c, rpos := 0, wpos := 0, capExceeded := false, fsm := .encFetch } ∧
      exec (.decode n c) s =
        .next
          { s with opr := 1, len := n, cap := c, rpos := 0, wpos := 0, capExceeded := false, fsm := .decReadV }) ∧
    (s.ports.start = true →
      exec (decodeCmd (cmdWord s.ports.op s.ports.inLen s.ports.outCap)) s = exec .idleWait s ∧
      exec (decodeCmd (cmdWord s.ports.op s.ports.inLen s.ports.outCap)) s = exec .doneHold s)

/-- R96: in a busy state the command ports change nothing, a command is lost, and neither transform enters a state of the
other. That exec of a lost command answers the unchanged state is the model's form of it (log entry 16). -/
def Obligations.BusyBlockIgnoresTheCommandPorts : Prop :=
  ∀ (s t : State) (p : Ports), s.busy = true → s.ports.rst = false → p.rst = false → blockStep s = .next t →
    blockStep { s with ports := p } = .next { t with ports := p } ∧
      (∀ n c : Word, exec (.encode n c) s = .next s ∧ exec (.decode n c) s = .next s) ∧
      (s.fsm ∈ [Fsm.encFetch, .encCount, .encEmitV, .encEmitC] →
        t.fsm ∉ [Fsm.decReadV, .decReadC, .decCheck, .decExpand]) ∧
      (s.fsm ∈ [Fsm.decReadV, .decReadC, .decCheck, .decExpand] →
        t.fsm ∉ [Fsm.encFetch, .encCount, .encEmitV, .encEmitC])

/-- R95: the transition table, over the naturals. -/
def Obligations.TransitionsAreTheTable : Prop :=
  ∀ s t : State, s.Inv → blockStep s = .next t →
    (s.ports.rst = true → t.fsm = .idle) ∧
      (s.ports.rst = false →
        t.fsm =
          (match s.fsm with
            | .idle => if s.ports.start then (if s.ports.op = 0 then .encFetch else .decReadV) else .idle
            | .encFetch => if s.rpos.toNat = s.len.toNat then .done else .encCount
            | .encCount =>
              if s.runCnt.toNat < 255 ∧ s.rpos.toNat + s.runCnt.toNat < s.len.toNat ∧
                  s.inp.read .inp (s.rpos.toNat + s.runCnt.toNat) = s.runVal then .encCount
              else .encEmitV
            | .encEmitV => if s.cap.toNat < s.wpos.toNat + 2 then .done else .encEmitC
            | .encEmitC => .encFetch
            | .decReadV => if s.len.toNat < s.rpos.toNat + 2 then .done else .decReadC
            | .decReadC => .decCheck
            | .decCheck => if s.cap.toNat < s.wpos.toNat + s.pairCnt.toNat then .done else .decExpand
            | .decExpand => if s.expRem.toNat = 0 then .decReadV else .decExpand
            | .done => if s.ports.start then (if s.ports.op = 0 then .encFetch else .decReadV) else .done) ∧
        (s.fsm = .encEmitV ∨ s.fsm = .decCheck → t.fsm = .done → t.capExceeded = true))

/-- R34: the outputs as functions of the state, and `written` after reset. -/
def Obligations.OutputsFollowTheState : Prop :=
  ∀ s : State,
    (s.busy = true ↔
      s.fsm ∈ [Fsm.encFetch, .encCount, .encEmitV, .encEmitC, .decReadV, .decReadC, .decCheck, .decExpand]) ∧
      (s.done = true ↔ s.fsm = .done) ∧ s.written = s.wpos ∧ (s.fsm = .idle → s.busy = false ∧ s.done = false) ∧
      (s.ports.rst = true → ∃ t, blockStep s = .next t ∧ t.fsm = .idle ∧ t.written = 0)

/-- R92, R97: without `start` and `rst` a block that is not busy keeps its whole state for as many steps as the host likes. -/
def Obligations.WaitingBlockHoldsItsResult : Prop :=
  ∀ (k : Nat) (s : State), s.busy = false → s.ports.start = false → s.ports.rst = false → blockRun k s = .next s

/-! ## The encoder's micro-operations -/

/-- R112: `ENC_FETCH`: its code, its two outcomes, and its accesses. -/
def Obligations.EncFetchResult : Prop :=
  decodeUstep 1 = .ok .encFetch ∧
  ∀ s : State,
    exec .encFetch s =
      .next
        (if s.rpos.toNat = s.len.toNat then { s with fsm := .done }
        else { s with runVal := s.inp.read .inp s.rpos.toNat, runCnt := 1, fsm := .encCount }) ∧
      (s.fsm = .encFetch →
        s.inAccess = (if s.rpos.toNat = s.len.toNat then none else some s.rpos) ∧ s.outAccess = none)

/-- R113: `ENC_COUNT`: its code, its two outcomes, and its accesses, for a run that is inside the input (R121). -/
def Obligations.EncCountResult : Prop :=
  decodeUstep 2 = .ok .encCount ∧
  ∀ s : State, s.rpos.toNat + s.runCnt.toNat ≤ s.len.toNat →
    exec .encCount s =
      .next
        (if s.runCnt.toNat < 255 ∧ s.rpos.toNat + s.runCnt.toNat < s.len.toNat ∧
            s.inp.read .inp (s.rpos.toNat + s.runCnt.toNat) = s.runVal then
          { s with runCnt := BitVec.ofNat 8 (s.runCnt.toNat + 1) }
        else { s with fsm := .encEmitV }) ∧
      (s.fsm = .encCount →
        s.inAccess =
          (if s.runCnt.toNat < 255 ∧ s.rpos.toNat + s.runCnt.toNat < s.len.toNat then
            some (BitVec.ofNat 64 (s.rpos.toNat + s.runCnt.toNat))
          else none) ∧
        s.outAccess = none)

/-- R114: `ENC_EMIT_V`: its code, its two outcomes, and its accesses, for `wpos` inside the output (R27). -/
def Obligations.EncEmitVResult : Prop :=
  decodeUstep 3 = .ok .encEmitV ∧
  ∀ s : State, s.wpos.toNat ≤ s.cap.toNat →
    exec .encEmitV s =
      .next
        (if s.cap.toNat - s.wpos.toNat < 2 then { s with capExceeded := true, fsm := .done }
        else { s with out := s.out.write s.wpos.toNat s.runVal, fsm := .encEmitC }) ∧
      (s.fsm = .encEmitV →
        s.inAccess = none ∧
        s.outAccess = (if s.cap.toNat - s.wpos.toNat < 2 then none else some (s.wpos, s.runVal)))

/-- R115: `ENC_EMIT_C`: its code, its outcome, and its accesses, for the room and the run that R114 and R121 leave. -/
def Obligations.EncEmitCResult : Prop :=
  decodeUstep 4 = .ok .encEmitC ∧
  ∀ s : State, s.wpos.toNat + 2 ≤ s.cap.toNat → s.rpos.toNat + s.runCnt.toNat ≤ s.len.toNat →
    exec .encEmitC s =
      .next
        { s with
          out := s.out.write (s.wpos.toNat + 1) s.runCnt
          wpos := BitVec.ofNat 64 (s.wpos.toNat + 2)
          rpos := BitVec.ofNat 64 (s.rpos.toNat + s.runCnt.toNat)
          fsm := .encFetch } ∧
      (s.fsm = .encEmitC →
        s.inAccess = none ∧ s.outAccess = some (BitVec.ofNat 64 (s.wpos.toNat + 1), s.runCnt))

/-! ## The decoder's micro-operations -/

/-- R142: `DEC_READ_V`: its code, its two outcomes, and its accesses, for `rpos` inside the input (R27). -/
def Obligations.DecReadVResult : Prop :=
  decodeUstep 5 = .ok .decReadV ∧
  ∀ s : State, s.rpos.toNat ≤ s.len.toNat →
    exec .decReadV s =
      .next
        (if s.len.toNat - s.rpos.toNat < 2 then { s with fsm := .done }
        else { s with pairVal := s.inp.read .inp s.rpos.toNat, fsm := .decReadC }) ∧
      (s.fsm = .decReadV →
        s.inAccess = (if s.len.toNat - s.rpos.toNat < 2 then none else some s.rpos) ∧ s.outAccess = none)

/-- R143: `DEC_READ_C`: its code, its outcome, and its accesses, for a whole Pair at `rpos` (R150). -/
def Obligations.DecReadCResult : Prop :=
  decodeUstep 6 = .ok .decReadC ∧
  ∀ s : State, s.rpos.toNat + 2 ≤ s.len.toNat →
    exec .decReadC s = .next { s with pairCnt := s.inp.read .inp (s.rpos.toNat + 1), fsm := .decCheck } ∧
      (s.fsm = .decReadC → s.inAccess = some (BitVec.ofNat 64 (s.rpos.toNat + 1)) ∧ s.outAccess = none)

/-- R144: `DEC_CHECK`: its code, its two outcomes, and that it makes no access, for positions that R27 and R150 allow. -/
def Obligations.DecCheckResult : Prop :=
  decodeUstep 7 = .ok .decCheck ∧
  ∀ s : State, s.wpos.toNat ≤ s.cap.toNat → s.rpos.toNat + 2 ≤ s.len.toNat →
    exec .decCheck s =
      .next
        (if s.pairCnt.toNat > s.cap.toNat - s.wpos.toNat then { s with capExceeded := true, fsm := .done }
        else { s with expRem := s.pairCnt, rpos := BitVec.ofNat 64 (s.rpos.toNat + 2), fsm := .decExpand }) ∧
      (s.fsm = .decCheck → s.inAccess = none ∧ s.outAccess = none)

/-- R145: `DEC_EXPAND`: its code, its two outcomes, and its accesses, for copies that fit (R150). -/
def Obligations.DecExpandResult : Prop :=
  decodeUstep 8 = .ok .decExpand ∧
  ∀ s : State, s.wpos.toNat + s.expRem.toNat ≤ s.cap.toNat →
    exec .decExpand s =
      .next
        (if s.expRem.toNat = 0 then { s with fsm := .decReadV }
        else
          { s with
            out := s.out.write s.wpos.toNat s.pairVal
            wpos := BitVec.ofNat 64 (s.wpos.toNat + 1)
            expRem := BitVec.ofNat 8 (s.expRem.toNat - 1) }) ∧
      (s.fsm = .decExpand →
        s.inAccess = none ∧ s.outAccess = (if s.expRem.toNat = 0 then none else some (s.wpos, s.pairVal)))

/-! ## Frames -/

/-- The commands and the waiting micro-operations change neither buffer, nor the five datapath registers, nor the ports,
nor the host (R91, R233). -/
def Obligations.CommandsFrame : Prop :=
  ∀ (s t : State) (n c : Word) (i : Instr), i ∈ [.encode n c, .decode n c, .idleWait, .doneHold] → exec i s = .next t →
    t.runVal = s.runVal ∧ t.runCnt = s.runCnt ∧ t.pairVal = s.pairVal ∧ t.pairCnt = s.pairCnt ∧ t.expRem = s.expRem ∧
      s.sameBuffers t ∧ t.ports = s.ports ∧ t.host = s.host

/-- The micro-operations that store nothing change only the registers their rules name, and no byte of either buffer
(R112, R113, R142, R143, R144). -/
def Obligations.ReadingMicroOperationsFrame : Prop :=
  ∀ (s t : State) (i : Instr), i ∈ [.encFetch, .encCount, .decReadV, .decReadC, .decCheck] → exec i s = .next t →
    s.sameBuffers t ∧ t.ports = s.ports ∧ t.host = s.host ∧ t.opr = s.opr ∧ t.len = s.len ∧ t.cap = s.cap ∧
      t.wpos = s.wpos ∧ (i ≠ .decCheck → t.rpos = s.rpos ∧ t.expRem = s.expRem ∧ t.capExceeded = s.capExceeded) ∧
      (i ≠ .encFetch → t.runVal = s.runVal) ∧ (i ≠ .encFetch → i ≠ .encCount → t.runCnt = s.runCnt) ∧
      (i ≠ .decReadV → t.pairVal = s.pairVal) ∧ (i ≠ .decReadC → t.pairCnt = s.pairCnt)

/-- The micro-operations that store change only the registers their rules name, no byte of `IN`, and of `OUT` at most the
one byte at the address they compute (R114, R115, R145). -/
def Obligations.StoringMicroOperationsFrame : Prop :=
  ∀ (s t : State) (i : Instr), i ∈ [.encEmitV, .encEmitC, .decExpand] → exec i s = .next t → s.out.wf = true →
    (∀ a : Nat, t.inp.read .inp a = s.inp.read .inp a) ∧
      (i = .encEmitV → ∀ a : Nat, s.noRoomForPair = true ∨ a ≠ s.valueAddr.toNat → t.out.read .out a = s.out.read .out a) ∧
      (i = .encEmitC → ∀ a : Nat, a ≠ s.countAddr.toNat → t.out.read .out a = s.out.read .out a) ∧
      (i = .decExpand → ∀ a : Nat, s.expRem = 0 ∨ a ≠ s.valueAddr.toNat → t.out.read .out a = s.out.read .out a) ∧
      t.ports = s.ports ∧ t.host = s.host ∧ t.opr = s.opr ∧ t.len = s.len ∧ t.cap = s.cap ∧ t.runVal = s.runVal ∧
      t.runCnt = s.runCnt ∧ t.pairVal = s.pairVal ∧ t.pairCnt = s.pairCnt ∧
      (i ≠ .encEmitV → t.capExceeded = s.capExceeded) ∧ (i ≠ .encEmitC → t.rpos = s.rpos) ∧
      (i = .encEmitV → t.wpos = s.wpos) ∧ (i ≠ .decExpand → t.expRem = s.expRem)

/-- R170: the host sequences change no register of the block; of `IN` only the bytes of the input they load; and no file. That
allocating `OUT` leaves its bytes is the model's (log entry 18), and so is where exec stops (log entry 8). -/
def Obligations.HostSequencesFrame : Prop :=
  ∀ (s t : State) (p q : Path), s.inp.wf = true →
    (exec (.compress p q) s = .next t →
      s.sameRegs t ∧ t.out = s.out ∧ t.host.files = s.host.files ∧ t.host.script = s.host.script ∧
        ∀ a : Nat, (s.readWholeFile p).1.length ≤ a → t.inp.read .inp a = s.inp.read .inp a) ∧
    (exec (.decompress p q) s = .next t →
      s.sameRegs t ∧ t.out = s.out ∧ t.host.files = s.host.files ∧ t.host.script = s.host.script ∧
        ∀ a : Nat, (containerPayload (s.readWholeFile p).1).length ≤ a → t.inp.read .inp a = s.inp.read .inp a)

/-! ## The exception and the flag -/

/-- R203 (with R201, R202): the flag is raised by `ENC_EMIT_V` with fewer than two bytes of room and by `DEC_CHECK` with
a run that does not fit, by nothing else, and the raise writes the flag and `fsm` and nothing else. -/
def Obligations.RaiseIsPreciseAndOnlyThere : Prop :=
  ∀ s t : State, s.wpos.toNat ≤ s.cap.toNat → s.capExceeded = false → blockStep s = .next t →
    (t.capExceeded = true ↔
      s.ports.rst = false ∧
        ((s.fsm = .encEmitV ∧ s.cap.toNat - s.wpos.toNat < 2) ∨
          (s.fsm = .decCheck ∧ s.cap.toNat < s.wpos.toNat + s.pairCnt.toNat))) ∧
      (t.capExceeded = true → t = { s with capExceeded := true, fsm := .done })

/-- R33: what clears the flag, what sets it, that it stays, and that no step reads it. -/
def Obligations.FlagChangesOnlyAsStated : Prop :=
  ∀ s t : State, blockStep s = .next t →
    (s.ports.rst = true → t.capExceeded = false) ∧
      (s.busy = false → s.ports.start = true → t.capExceeded = false) ∧
      (s.ports.rst = false → s.busy = true ∨ s.ports.start = false → s.capExceeded = true → t.capExceeded = true) ∧
      (t.capExceeded = true → s.capExceeded = true ∨ s.fsm = .encEmitV ∨ s.fsm = .decCheck) ∧
      ∀ b : Bool, ∃ u, blockStep { s with capExceeded := b } = .next u ∧ { u with capExceeded := t.capExceeded } = t

/-! ## Buffer accesses -/

/-- R51: every read of `IN` is inside the input. -/
def Obligations.ReadsStayInsideTheInput : Prop :=
  ∀ (s : State) (a : Word), s.Inv → s.inAccess = some a → a.toNat < s.len.toNat

/-- R52: every write of `OUT` is inside the capacity; `IN` is never written and `OUT` never read. -/
def Obligations.WritesStayInsideTheCapacity : Prop :=
  ∀ s t : State, s.Inv → blockStep s = .next t →
    (∀ a v, s.outAccess = some (a, v) → a.toNat < s.cap.toNat) ∧
      (∀ a : Nat, s.cap.toNat ≤ a → t.out.read .out a = s.out.read .out a) ∧ (s.cap = 0 → t.out = s.out) ∧ t.inp = s.inp ∧
      ∀ m : Memory, ∃ u, blockStep { s with out := m } = .next u ∧ { u with out := t.out } = t

/-- R56: a step with `rst = 0` changes exactly the byte of `OUT` its write port names, if any; a reset step none. -/
def Obligations.AStepWritesExactlyItsPort : Prop :=
  ∀ s t : State, s.out.wf = true → blockStep s = .next t →
    ∀ b : Nat,
      t.out.read .out b =
        (if s.ports.rst then s.out.read .out b
        else
          match s.outAccess with
          | none => s.out.read .out b
          | some (a, v) => if b = a.toNat then v else s.out.read .out b)

/-- R55, R36: a step sees `IN` only through the one byte its read port names. -/
def Obligations.AStepReadsOnlyItsPort : Prop :=
  ∀ (s t : State) (m : Memory), (∀ a, s.inAccess = some a → m.read .inp a.toNat = s.inp.read .inp a.toNat) →
    blockStep s = .next t → blockStep { s with inp := m } = .next { t with inp := m }

/-- R61, R182: the host changes no register, and neither buffer while the block is busy. It can drive the ports, `rst` among
them, in every turn that is no fault; and while the block is not busy and no sequence waits it can write any byte of either
buffer, whatever the ports hold. One move a turn is the model's choice (log entry 7). -/
def Obligations.HostLeavesABusyBlockAlone : Prop :=
  ∀ s t : State, hostTurn s = .next t →
    s.sameRegs t ∧ (s.busy = true → t.inp = s.inp ∧ t.out = s.out) ∧
      (∀ levels rest, s.host.script = .drive levels :: rest → t.ports = levels ∧ t.host.script = rest) ∧
      (∀ a v rest, s.busy = false → s.host.phase = .idle → s.host.script = .writeIn a v :: rest →
        t.inp = s.inp.write a.toNat v ∧ t.out = s.out) ∧
      (∀ a v rest, s.busy = false → s.host.phase = .idle → s.host.script = .writeOut a v :: rest →
        t.out = s.out.write a.toNat v ∧ t.inp = s.inp)

/-! ## Invariants -/

/-- R27 (with R33, R121, R150): the invariant holds after reset. -/
def Obligations.ResetMeetsTheInvariant : Prop := State.reset.Inv

/-- R27 (with R33, R121, R150): every step of the system keeps the invariant. -/
def Obligations.EveryStepKeepsTheInvariant : Prop :=
  ∀ s t : State, s.Inv → step s = .next t → t.Inv

/-! ## Whole operations -/

/-- R126, R123: an encode reaches `DONE`, and there the result is `enc(S, cap)`; bytes of `OUT` past the result are as they were. -/
def Obligations.EncodeComputesEnc : Prop :=
  ∀ (s : State) (raw : List Byte), s.busy = false → s.ports.rst = false → s.ports.start = true → s.ports.op = 0 →
    raw.length < 2 ^ 64 → s.ports.inLen = BitVec.ofNat 64 raw.length → s.inp.bytes .inp raw.length = raw → s.out.wf = true →
    ∃ s₁ k t, blockStep s = .next s₁ ∧ s₁.endsIn k t ∧
      t.out.bytes .out t.wpos.toNat = (enc raw s.ports.outCap.toNat).1 ∧
      t.wpos.toNat = (enc raw s.ports.outCap.toNat).1.length ∧
      (t.capExceeded = true ↔ (enc raw s.ports.outCap.toNat).2 = .capacityExceeded) ∧
      ∀ a : Nat, t.wpos.toNat ≤ a → t.out.read .out a = s.out.read .out a

/-- R156, R152: a decode reaches `DONE`, and there the result is `dec(P, cap)`; bytes of `OUT` past the result are as they were. -/
def Obligations.DecodeComputesDec : Prop :=
  ∀ (s : State) (payload : List Byte), s.busy = false → s.ports.rst = false → s.ports.start = true → s.ports.op = 1 →
    payload.length < 2 ^ 64 → s.ports.inLen = BitVec.ofNat 64 payload.length → s.inp.bytes .inp payload.length = payload →
    s.out.wf = true →
    ∃ s₁ k t, blockStep s = .next s₁ ∧ s₁.endsIn k t ∧
      t.out.bytes .out t.wpos.toNat = (dec payload s.ports.outCap.toNat).1 ∧
      t.wpos.toNat = (dec payload s.ports.outCap.toNat).1.length ∧
      (t.capExceeded = true ↔ (dec payload s.ports.outCap.toNat).2 = .capacityExceeded) ∧
      ∀ a : Nat, t.wpos.toNat ≤ a → t.out.read .out a = s.out.read .out a

/-- R124: every encode ends, and how many steps it takes, the accepting step and the step that enters `DONE` counted. -/
def Obligations.EncodeStepCount : Prop :=
  ∀ (s : State) (raw : List Byte), s.busy = false → s.ports.rst = false → s.ports.start = true →
    s.ports.op = 0 → raw.length < 2 ^ 64 → s.ports.inLen = BitVec.ofNat 64 raw.length →
    s.inp.bytes .inp raw.length = raw → s.out.wf = true →
    ∃ s₁ k t, blockStep s = .next s₁ ∧ s₁.endsIn k t ∧ (t.capExceeded = false → k + 1 = raw.length + 3 * pairCount raw + 2) ∧
      (t.capExceeded = true →
        k + 1 =
          (expandPairs (enc raw s.ports.outCap.toNat).1).length + 3 * (s.ports.outCap.toNat / 2) +
            ((full raw).getD (2 * (s.ports.outCap.toNat / 2) + 1) 0).toNat + 3) ∧
      k + 1 ≤ 4 * raw.length + 2

/-- R153: every decode ends, and how many steps it takes, the accepting step and the step that enters `DONE` counted. -/
def Obligations.DecodeStepCount : Prop :=
  ∀ (s : State) (payload : List Byte), s.busy = false → s.ports.rst = false → s.ports.start = true →
    s.ports.op = 1 → payload.length < 2 ^ 64 → s.ports.inLen = BitVec.ofNat 64 payload.length →
    s.inp.bytes .inp payload.length = payload → s.out.wf = true →
    ∃ s₁ k t, blockStep s = .next s₁ ∧ s₁.endsIn k t ∧ (t.capExceeded = false → k + 1 = t.wpos.toNat + 4 * (payload.length / 2) + 2) ∧
      (t.capExceeded = true →
        ∃ whole, 2 * whole + 2 ≤ payload.length ∧ (expandPairs (payload.take (2 * whole))).length = t.wpos.toNat ∧
          s.ports.outCap.toNat < (expandPairs (payload.take (2 * whole + 2))).length ∧
          k + 1 = t.wpos.toNat + 4 * whole + 4) ∧
      k + 1 ≤ 259 * (payload.length / 2) + 2

/-- R99: the result of an operation is a function of the command and the input: not of the state before, of stale
registers, or of the earlier contents of `OUT`. -/
def Obligations.ResultDependsOnTheCommandAndInputOnly : Prop :=
  ∀ s u : State, s.busy = false → u.busy = false → s.ports.rst = false → s.ports.start = true → u.ports = s.ports →
    s.out.wf = true → u.out.wf = true → (∀ a : Nat, a < s.ports.inLen.toNat → u.inp.read .inp a = s.inp.read .inp a) →
    ∃ s₁ u₁ t v k j, blockStep s = .next s₁ ∧ blockStep u = .next u₁ ∧ s₁.endsIn k t ∧ u₁.endsIn j v ∧
      v.result = t.result ∧ v.written = t.written

/-- R116, R147: an operation on an empty input is the accepting step and one step, with no access and no exception. -/
def Obligations.EmptyInputEndsAtOnce : Prop :=
  (∀ cap : Nat, enc [] cap = ([], .ok) ∧ dec [] cap = ([], .ok)) ∧
    ∀ s : State, s.busy = false → s.ports.rst = false → s.ports.start = true → s.ports.inLen = 0 →
      ∃ s₁ t, blockStep s = .next s₁ ∧ blockStep s₁ = .next t ∧ s₁.fsm ≠ .done ∧ t.fsm = .done ∧ t.written = 0 ∧
        t.capExceeded = false ∧ t.out = s.out ∧ s.inAccess = none ∧ s₁.inAccess = none ∧ s.outAccess = none ∧
        s₁.outAccess = none

/-! ## The transforms -/

/-- R111: the facts about `enc`. -/
def Obligations.EncodingFacts : Prop :=
  ∀ (raw : List Byte) (cap : Nat),
    (enc raw cap).1.length % 2 = 0 ∧ (enc raw cap).1.length ≤ cap ∧ (enc raw cap).1.length ≤ 2 * raw.length ∧
      (∀ k, 2 * k + 1 < (enc raw cap).1.length → 1 ≤ ((enc raw cap).1.getD (2 * k + 1) 0).toNat) ∧
      (2 * raw.length ≤ cap → enc raw cap = (full raw, .ok)) ∧
      (enc raw cap).1 = (full raw).take (2 * min (pairCount raw) (cap / 2)) ∧
      ((enc raw cap).2 = .capacityExceeded ↔ cap / 2 < pairCount raw) ∧ enc [] cap = ([], .ok) ∧
      ((enc raw cap).2 = .capacityExceeded →
        (enc raw cap).1.length = 2 * (cap / 2) ∧ 2 * (cap / 2) < (full raw).length)

/-- R125: the encoding run by run: for each maximal run the Pairs of count 255, then one for the rest. -/
def Obligations.LongRunsAreSplitGreedily : Prop :=
  (∀ runs : List (Byte × Nat), (∀ r ∈ runs, 1 ≤ r.2) → runs.IsChain (fun r r' => r.1 ≠ r'.1) →
    full (runs.flatMap (fun r => List.replicate r.2 r.1)) =
      runs.flatMap (fun r =>
        (List.replicate (r.2 / 255) [r.1, 255]).flatten ++
          if r.2 % 255 = 0 then [] else [r.1, BitVec.ofNat 8 (r.2 % 255)])) ∧
    ∀ (v : Byte) (n : Nat),
      pairCount (List.replicate n v) = (n + 254) / 255 ∧
        expandPairs (full (List.replicate n v)) = List.replicate n v

/-- What R120 calls canonical: no count is 0, and of two adjacent Pairs of one value the first has count 255. -/
def CanonicalPairs : List Byte → Prop
  | v :: c :: v' :: c' :: rest => c ≠ 0 ∧ (v = v' → c = 255) ∧ CanonicalPairs (v' :: c' :: rest)
  | _ :: c :: _ => c ≠ 0
  | _ => True

/-- R120: the encoder's output is the only canonical payload without a trailing byte that expands to the input. -/
def Obligations.EncodingIsTheCanonicalPayload : Prop :=
  ∀ raw : List Byte, CanonicalPairs (full raw) ∧ expandPairs (full raw) = raw ∧
    ∀ payload : List Byte, payload.length % 2 = 0 → CanonicalPairs payload → expandPairs payload = raw →
      payload = full raw

/-- R141: the facts about `dec`: the longest prefix of Pairs that fits is expanded, whole. -/
def Obligations.DecodingFacts : Prop :=
  ∀ (payload : List Byte) (cap : Nat), ∃ whole, whole ≤ payload.length / 2 ∧
    (dec payload cap).1 = expandPairs (payload.take (2 * whole)) ∧ (dec payload cap).1.length ≤ cap ∧
    (whole < payload.length / 2 → cap < (expandPairs (payload.take (2 * whole + 2))).length) ∧
    ((dec payload cap).2 = .capacityExceeded ↔ whole < payload.length / 2) ∧
    ((expandPairs payload).length ≤ cap → dec payload cap = (expandPairs payload, .ok))

/-- R146: a dangling last byte is ignored. -/
def Obligations.DanglingByteIsIgnored : Prop :=
  (∀ (payload : List Byte) (x : Byte) (cap : Nat), payload.length % 2 = 0 →
    dec (payload ++ [x]) cap = dec payload cap) ∧
    (∀ (x : Byte) (cap : Nat), dec [x] cap = ([], .ok)) ∧
    ∀ s : State, s.fsm = .decReadV → s.ports.rst = false → s.len.toNat = s.rpos.toNat + 1 →
      s.inAccess = none ∧ blockStep s = .next { s with fsm := .done }

/-- R148: a Pair of count 0 appends nothing, raises nothing, and the scan goes on: for `dec`, and step by step. -/
def Obligations.ZeroCountPairIsSkipped : Prop :=
  (∀ (front back : List Byte) (v : Byte) (cap : Nat), front.length % 2 = 0 →
    dec (front ++ v :: 0 :: back) cap = dec (front ++ back) cap) ∧
    ∀ s : State, s.fsm = .decCheck → s.ports.rst = false → s.pairCnt = 0 → s.rpos.toNat + 2 ≤ s.len.toNat →
      blockRun 2 s = .next { s with expRem := 0, rpos := BitVec.ofNat 64 (s.rpos.toNat + 2), fsm := .decReadV }

/-- R154: the round trip, and what a truncated encoding decodes to. -/
def Obligations.DecodingInvertsEncoding : Prop :=
  ∀ (raw : List Byte) (c₁ c₂ : Nat),
    dec (full raw) raw.length = (raw, .ok) ∧
      (2 * raw.length ≤ c₁ → raw.length ≤ c₂ → dec (enc raw c₁).1 c₂ = (raw, .ok)) ∧
      ((enc raw c₁).2 = .capacityExceeded →
        ∃ n, n < raw.length ∧ dec (enc raw c₁).1 raw.length = (raw.take n, .ok) ∧
          (enc raw c₁).1 = full (raw.take n))

/-! ## The host -/

/-- R174: the order of the machine, the header bytes in both orders, and that the size is read back. -/
def Obligations.HeaderHoldsTheSize : Prop :=
  Config.hdrOrder = .little ∧
  ∀ size : Word,
    (∀ order : HdrOrder, headerValue order (headerBytes order size) = size ∧ (headerBytes order size).length = 8) ∧
      ∀ j, j < 8 →
        (headerBytes .little size).getD j 0 = size.extractLsb' (8 * j) 8 ∧
          (headerBytes .big size).getD j 0 = size.extractLsb' (56 - 8 * j) 8

/-- R175 steps 1 to 4: `COMPRESS` of a file with bytes loads them, puts `ENCODE` on the ports with the capacity of R181,
and waits. -/
def Obligations.CompressBegins : Prop :=
  ∀ (s : State) (p q : Path) (raw : List Byte), s.hostFree = true → findFile s.host.files p = some raw → raw ≠ [] →
    raw.length < 2 ^ 64 →
    exec (.compress p q) s =
      .next
        { s with
          inp := s.inp.writeBytes 0 raw
          ports :=
            { rst := false, start := true, op := 0, inLen := BitVec.ofNat 64 raw.length,
              outCap := BitVec.ofNat 64 (min (2 * raw.length) (2 ^ 64 - 1)) }
          host := { s.host with phase := .compress q raw.length } }

/-- R176 steps 1 to 6: `DECOMPRESS` of a file of 8 or more bytes loads the payload, puts `DECODE` on the ports with the
header's size as capacity, and waits. -/
def Obligations.DecompressBegins : Prop :=
  ∀ (s : State) (p q : Path) (size : Word) (payload : List Byte), s.hostFree = true →
    findFile s.host.files p = some (headerBytes .little size ++ payload) → payload.length < 2 ^ 64 →
    exec (.decompress p q) s =
      .next
        { s with
          inp := s.inp.writeBytes 0 payload
          ports :=
            { rst := false, start := true, op := 1, inLen := BitVec.ofNat 64 payload.length, outCap := size }
          host := { s.host with phase := .decompress q size } }

/-- R175 step 2, R176 steps 2 and 3: an empty or missing input ends the sequence with no command and no file written; a
container shorter than its header too, with a diagnostic. The diagnostic of the missing file is the file reader's
(log entry 12), and the exit code of an abort is that of R179 (log entry 13). -/
def Obligations.EmptyOrShortInputAborts : Prop :=
  ∀ (s : State) (p q : Path), s.hostFree = true →
    (findFile s.host.files p = some [] →
      exec (.compress p q) s = .next { s with host := { s.host with exitCode := some 0 } } ∧
      exec (.decompress p q) s = .next { s with host := { s.host with exitCode := some 0 } }) ∧
    (findFile s.host.files p = none →
      exec (.compress p q) s =
        .next { s with host := { s.host with exitCode := some 0, diags := s.host.diags ++ [.inputUnreadable] } } ∧
      exec (.decompress p q) s =
        .next { s with host := { s.host with exitCode := some 0, diags := s.host.diags ++ [.inputUnreadable] } }) ∧
    ∀ c : List Byte, findFile s.host.files p = some c → c ≠ [] → c.length < 8 →
      exec (.decompress p q) s =
        .next { s with host := { s.host with exitCode := some 0, diags := s.host.diags ++ [.malformedContainer] } }

/-- U27 (93_implementation_defined.md), R61: a sequence is refused while the block is busy or another sequence waits,
whatever the files; only then (R182 (a)). The refusal is the model's form of a move the host does not have (log entry 6). -/
def Obligations.HostSequencesNeedTheBuffers : Prop :=
  ∀ (s : State) (p q : Path),
    (s.busy = true ∨ s.host.phase ≠ .idle ↔ exec (.compress p q) s = .refused .buffersNotOwned) ∧
      (s.busy = true ∨ s.host.phase ≠ .idle ↔ exec (.decompress p q) s = .refused .buffersNotOwned)

/-- R175 steps 5 and 6, R179, R180, R212: with `done = 1` the waiting `COMPRESS` writes header and result, whatever the status,
and leaves exit code 0. That it prints the capacity diagnostic, which R175 does not list, is the model's choice (log entry
13). -/
def Obligations.CompressFinishes : Prop :=
  ∀ (s : State) (q : Path) (n : Nat), s.host.phase = .compress q n → s.ports.start = false → s.done = true →
    q ∉ s.host.unwritable →
    ∃ t, hostTurn s = .next t ∧ s.sameRegs t ∧ t.inp = s.inp ∧ t.out = s.out ∧ t.host.phase = .idle ∧
      t.host.exitCode = some 0 ∧
      findFile t.host.files q = some (headerBytes .little (BitVec.ofNat 64 n) ++ s.out.bytes .out s.written.toNat) ∧
      (∀ p, p ≠ q → findFile t.host.files p = findFile s.host.files p) ∧
      t.host.diags = s.host.diags ++ (if s.capExceeded then [.capacityExceeded] else [])

/-- R176 steps 7 to 9, R179: with `done = 1` the waiting `DECOMPRESS` writes the result, whatever the status, with a diagnostic
for an exceeded capacity and one for a size that is not the header's, and leaves exit code 0 (log entry 13). -/
def Obligations.DecompressFinishes : Prop :=
  ∀ (s : State) (q : Path) (size : Word), s.host.phase = .decompress q size → s.ports.start = false → s.done = true →
    q ∉ s.host.unwritable →
    ∃ t, hostTurn s = .next t ∧ s.sameRegs t ∧ t.inp = s.inp ∧ t.out = s.out ∧ t.host.phase = .idle ∧
      t.host.exitCode = some 0 ∧ findFile t.host.files q = some (s.out.bytes .out s.written.toNat) ∧
      (∀ p, p ≠ q → findFile t.host.files p = findFile s.host.files p) ∧
      t.host.diags =
        s.host.diags ++ (if s.capExceeded then [.capacityExceeded] else []) ++
          (if s.written ≠ size then [.sizeMismatch] else [])

/-- R175, R171, R172: a `COMPRESS` run to its end by steps of the system, with no port levels driven meanwhile, leaves the
container of the file. -/
def Obligations.CompressWritesTheContainer : Prop :=
  ∀ (s s₁ : State) (p q : Path) (raw : List Byte), s.hostFree = true → s.inp.wf = true → s.out.wf = true →
    findFile s.host.files p = some raw → raw ≠ [] → 2 * raw.length < 2 ^ 64 → q ∉ s.host.unwritable →
    (∀ levels rest, s.host.script ≠ .drive levels :: rest) → exec (.compress p q) s = .next s₁ →
    ∃ k t, core.run k s₁ = .next t ∧ t.host.phase = .idle ∧ t.host.exitCode = some 0 ∧
      findFile t.host.files q = some (headerBytes .little (BitVec.ofNat 64 raw.length) ++ full raw) ∧
      t.host.diags = s.host.diags

/-- R176: a `DECOMPRESS` run to its end by steps of the system, with no port levels driven meanwhile, leaves what the
payload decodes to, with the diagnostics of what went wrong. -/
def Obligations.DecompressWritesTheDecoding : Prop :=
  ∀ (s s₁ : State) (p q : Path) (size : Word) (payload : List Byte), s.hostFree = true → s.inp.wf = true →
    s.out.wf = true → findFile s.host.files p = some (headerBytes .little size ++ payload) →
    payload.length < 2 ^ 64 → q ∉ s.host.unwritable → (∀ levels rest, s.host.script ≠ .drive levels :: rest) →
    exec (.decompress p q) s = .next s₁ →
    ∃ k t, core.run k s₁ = .next t ∧ t.host.phase = .idle ∧ t.host.exitCode = some 0 ∧
      findFile t.host.files q = some (dec payload size.toNat).1 ∧
      t.host.diags =
        s.host.diags ++
          (if (dec payload size.toNat).2 = .capacityExceeded then [.capacityExceeded] else []) ++
          (if (dec payload size.toNat).1.length ≠ size.toNat then [.sizeMismatch] else [])

/-- R185: `COMPRESS` then `DECOMPRESS`, with no port levels driven meanwhile, gives the file back byte for byte, for a file
that is not empty. -/
def Obligations.ContainersKeepTheFile : Prop :=
  ∀ (s s₁ : State) (p q r : Path) (raw : List Byte), s.hostFree = true → s.inp.wf = true → s.out.wf = true →
    findFile s.host.files p = some raw → raw ≠ [] → 2 * raw.length < 2 ^ 64 → q ∉ s.host.unwritable →
    r ∉ s.host.unwritable → (∀ levels rest, s.host.script ≠ .drive levels :: rest) →
    exec (.compress p q) s = .next s₁ →
    ∃ k t t₁ j u, core.run k s₁ = .next t ∧ exec (.decompress q r) t = .next t₁ ∧ core.run j t₁ = .next u ∧
      u.host.phase = .idle ∧ findFile u.host.files r = some raw ∧ u.host.diags = s.host.diags

/-- R179: a command line is one of the two commands with two paths, or bad usage: exit code 1, a diagnostic, and nothing
else (log entry 13). -/
def Obligations.CommandLineIsReadAsStated : Prop :=
  (∀ p q : Path, parseCommandLine ["compress", p, q] = .compress p q ∧
    parseCommandLine ["decompress", p, q] = .decompress p q) ∧
    (∀ args : List String, args.length ≠ 3 → parseCommandLine args = .badUsage) ∧
    (∀ c p q : String, c ≠ "compress" → c ≠ "decompress" → parseCommandLine [c, p, q] = .badUsage) ∧
    ∀ (s : State) (args : List String) (rest : List HostMove), s.host.phase = .idle →
      s.host.script = .commandLine args :: rest → parseCommandLine args = .badUsage →
      hostTurn s =
        .next
          { s with
            host := { s.host with script := rest, exitCode := some 1, diags := s.host.diags ++ [.badUsage] } }
end

