-- ==== Sys2Proof/Laws/Decode.lean ====
section
/-! SUPPORT. The fields of a command word (30_encoding.md R75), and bytes and numbers. -/

namespace Sys2Proof

@[simp] theorem cmdWord_op (op : BitVec 1) (n c : Word) : (cmdWord op n c).extractLsb' 0 1 = op := by
  ext i hi
  rw [BitVec.getElem_extractLsb', BitVec.getElem_eq_testBit_toNat]
  change BitVec.getLsbD (w := 64 + 64 + 1) (c ++ n ++ op) (0 + i) = _
  rw [BitVec.getLsbD_append, if_pos (by omega), Nat.zero_add]
  rfl

@[simp] theorem cmdWord_inLen (op : BitVec 1) (n c : Word) : (cmdWord op n c).extractLsb' 1 64 = n := by
  ext i hi
  rw [BitVec.getElem_extractLsb', BitVec.getElem_eq_testBit_toNat]
  change BitVec.getLsbD (w := 64 + 64 + 1) (c ++ n ++ op) (1 + i) = _
  rw [BitVec.getLsbD_append, if_neg (by omega), BitVec.getLsbD_append, if_pos (by omega), Nat.add_sub_cancel_left]
  rfl

@[simp] theorem cmdWord_outCap (op : BitVec 1) (n c : Word) : (cmdWord op n c).extractLsb' 65 64 = c := by
  ext i hi
  rw [BitVec.getElem_extractLsb', BitVec.getElem_eq_testBit_toNat]
  change BitVec.getLsbD (w := 64 + 64 + 1) (c ++ n ++ op) (65 + i) = _
  rw [BitVec.getLsbD_append, if_neg (by omega), BitVec.getLsbD_append, if_neg (by omega)]
  rw [show 65 + i - 1 - 64 = i by omega]
  rfl

@[simp] theorem length_leBytes (n v : Nat) : (leBytes n v).length = n := by
  induction n generalizing v with
  | zero => rfl
  | succ n ih => simp [leBytes, ih]

/-- The number the low `n` bytes hold. -/
theorem leValue_leBytes (n v : Nat) : leValue (leBytes n v) = v % 256 ^ n := by
  induction n generalizing v with
  | zero => simp [leBytes, leValue, Nat.mod_one]
  | succ n ih =>
    have h : v % (256 * 256 ^ n) = v % 256 + 256 * (v / 256 % 256 ^ n) := Nat.mod_mul
    rw [leBytes, leValue, ih, BitVec.toNat_ofNat, show 256 ^ (n + 1) = 256 * 256 ^ n from Nat.pow_succ', h]

/-- The bytes of the number that bytes hold are those bytes. -/
theorem leBytes_leValue (bs : List Byte) : leBytes bs.length (leValue bs) = bs := by
  induction bs with
  | nil => rfl
  | cons b bs ih =>
    have hb := b.isLt
    have h1 : (b.toNat + 256 * leValue bs) / 256 = leValue bs := by omega
    have h2 : BitVec.ofNat 8 (b.toNat + 256 * leValue bs) = b := by
      apply BitVec.eq_of_toNat_eq
      rw [BitVec.toNat_ofNat]
      omega
    simp only [List.length_cons, leValue, leBytes, h1, h2, ih]

theorem leValue_lt (bs : List Byte) : leValue bs < 256 ^ bs.length := by
  induction bs with
  | nil => simp [leValue]
  | cons b bs ih =>
    have hb := b.isLt
    simp only [leValue, List.length_cons, Nat.pow_succ]
    omega

end Sys2Proof
end

