-- ==== Sys2Proof/Laws/Memory.lean ====
section
/-! SUPPORT. The laws of a buffer space: a read after a write, and that every operation keeps the canonical form
(20_memory.md R55, R56). -/

namespace Sys2Proof.Machine

theorem Memory.read_write (space : Space) (m : Memory) (a : Nat) (v : Byte) (h : Memory.wf m = true) (b : Nat) :
    (m.write a v).read space b = if b = a then v else m.read space b := by
  have key : ∀ (m : Memory) (lo : Nat), Memory.wfFrom lo m = true →
      (m.write a v).read space b = if b = a then v else m.read space b := by
    intro m
    induction m with
    | nil =>
      intro lo _
      simp [Memory.write, Memory.read]
    | cons c m ih =>
      obtain ⟨c, w⟩ := c
      intro lo h
      simp only [Memory.wfFrom, Bool.and_eq_true, decide_eq_true_eq] at h
      simp only [Memory.write]
      split
      · by_cases hba : b = a <;> simp [Memory.read, hba]
      · split
        · subst_vars
          by_cases hbc : b = c <;> simp [Memory.read, hbc]
        · have := ih _ h.2
          by_cases hbc : b = c
          · have hba : b ≠ a := by omega
            simp [Memory.read, hbc]
            omega
          · simp [Memory.read, hbc, this]
  exact key m 0 h

theorem Memory.wfFrom_mono (m : Memory) (lo lo' : Nat) (h : Memory.wfFrom lo m = true) (hle : lo' ≤ lo) :
    Memory.wfFrom lo' m = true := by
  cases m with
  | nil => rfl
  | cons c m =>
    obtain ⟨c, w⟩ := c
    simp only [Memory.wfFrom, Bool.and_eq_true, decide_eq_true_eq] at h ⊢
    exact ⟨⟨by omega, h.1.2⟩, h.2⟩

/-- A write at a 64-bit index keeps the canonical form. -/
theorem Memory.write_wf (m : Memory) (a : Nat) (v : Byte) (ha : a < 2 ^ 64) (h : Memory.wf m = true) :
    Memory.wf (m.write a v) = true := by
  have key : ∀ (m : Memory) (lo : Nat), lo ≤ a → Memory.wfFrom lo m = true →
      Memory.wfFrom lo (m.write a v) = true := by
    intro m
    induction m with
    | nil =>
      intro lo hlo _
      simp [Memory.write, Memory.wfFrom]
      omega
    | cons c m ih =>
      obtain ⟨c, w⟩ := c
      intro lo hlo h
      simp only [Memory.wfFrom, Bool.and_eq_true, decide_eq_true_eq] at h
      simp only [Memory.write]
      split
      · simp only [Memory.wfFrom, Bool.and_eq_true, decide_eq_true_eq]
        exact ⟨⟨hlo, ha⟩, ⟨by omega, h.1.2⟩, h.2⟩
      · split
        · simp only [Memory.wfFrom, Bool.and_eq_true, decide_eq_true_eq]
          exact h
        · simp only [Memory.wfFrom, Bool.and_eq_true, decide_eq_true_eq]
          exact ⟨h.1, ih (c + 1) (by omega) h.2⟩
  exact key m 0 (Nat.zero_le _) h

/-- Writing bytes that end below 2^64 keeps the canonical form. -/
theorem Memory.writeBytes_wf (bs : List Byte) (m : Memory) (a : Nat) (ha : a + bs.length ≤ 2 ^ 64)
    (h : Memory.wf m = true) : Memory.wf (m.writeBytes a bs) = true := by
  induction bs generalizing m a with
  | nil => exact h
  | cons b bs ih =>
    simp only [List.length_cons] at ha
    exact ih _ _ (by omega) (Memory.write_wf m a b (by omega) h)

/-- A byte after bytes are written at `a`: one of them inside their range, the old byte outside it. -/
theorem Memory.read_writeBytes (space : Space) (bs : List Byte) (m : Memory) (a : Nat) (ha : a + bs.length ≤ 2 ^ 64)
    (h : Memory.wf m = true) (b : Nat) :
    (m.writeBytes a bs).read space b = if a ≤ b then bs.getD (b - a) (m.read space b) else m.read space b := by
  induction bs generalizing m a with
  | nil => simp [Memory.writeBytes]
  | cons c bs ih =>
    simp only [List.length_cons] at ha
    simp only [Memory.writeBytes]
    rw [ih _ _ (by omega) (Memory.write_wf m a c (by omega) h), Memory.read_write space m a c h b]
    by_cases hab : a ≤ b
    · by_cases hba : b = a
      · subst hba; simp
      · have h1 : a + 1 ≤ b := by omega
        have h2 : b - a = (b - (a + 1)) + 1 := by omega
        simp [hab, h1, hba, h2]
    · have : ¬ a + 1 ≤ b := by omega
      have h3 : b ≠ a := by omega
      simp [hab, this, h3]

@[simp] theorem Memory.length_bytes (space : Space) (m : Memory) (n : Nat) : (m.bytes space n).length = n := by simp [Memory.bytes]

theorem Memory.getElem_bytes (space : Space) (m : Memory) (n i : Nat) (h : i < (m.bytes space n).length) :
    (m.bytes space n)[i] = m.read space i := by
  simp [Memory.bytes]

theorem Memory.bytes_succ (space : Space) (m : Memory) (n : Nat) :
    m.bytes space (n + 1) = m.bytes space n ++ [m.read space n] := by
  simp [Memory.bytes, List.range_succ]

/-- Two spaces that agree below `n` hold the same first `n` bytes. -/
theorem Memory.bytes_congr (space : Space) (m m' : Memory) (n : Nat)
    (h : ∀ i, i < n → m.read space i = m'.read space i) : m.bytes space n = m'.bytes space n := by
  simp only [Memory.bytes]
  exact List.map_congr_left fun i hi => h i (List.mem_range.mp hi)

/-- The first bytes after bytes are written at 0 are those bytes. -/
theorem Memory.bytes_writeBytes (space : Space) (bs : List Byte) (m : Memory) (hl : bs.length ≤ 2 ^ 64) (h : Memory.wf m = true) :
    (m.writeBytes 0 bs).bytes space bs.length = bs := by
  apply List.ext_getElem
  · simp
  · intro i h1 h2
    rw [Memory.getElem_bytes, Memory.read_writeBytes space bs m 0 (by omega) h]
    simp [h2]

end Sys2Proof.Machine
end

