-- ==== Sys2Proof/Laws/State.lean ====
section
/-! SUPPORT. One lemma per field per update, each true by rfl: later proofs do not unfold a record update. -/

namespace Sys2Proof.Machine

variable (s : State)

/-! `fsm <- f` -/

@[simp] theorem State.goto_fsm (f : Fsm) : (s.goto f).fsm = f := rfl
@[simp] theorem State.goto_opr (f : Fsm) : (s.goto f).opr = s.opr := rfl
@[simp] theorem State.goto_len (f : Fsm) : (s.goto f).len = s.len := rfl
@[simp] theorem State.goto_cap (f : Fsm) : (s.goto f).cap = s.cap := rfl
@[simp] theorem State.goto_rpos (f : Fsm) : (s.goto f).rpos = s.rpos := rfl
@[simp] theorem State.goto_wpos (f : Fsm) : (s.goto f).wpos = s.wpos := rfl
@[simp] theorem State.goto_runVal (f : Fsm) : (s.goto f).runVal = s.runVal := rfl
@[simp] theorem State.goto_runCnt (f : Fsm) : (s.goto f).runCnt = s.runCnt := rfl
@[simp] theorem State.goto_pairVal (f : Fsm) : (s.goto f).pairVal = s.pairVal := rfl
@[simp] theorem State.goto_pairCnt (f : Fsm) : (s.goto f).pairCnt = s.pairCnt := rfl
@[simp] theorem State.goto_expRem (f : Fsm) : (s.goto f).expRem = s.expRem := rfl
@[simp] theorem State.goto_capExceeded (f : Fsm) : (s.goto f).capExceeded = s.capExceeded := rfl
@[simp] theorem State.goto_inp (f : Fsm) : (s.goto f).inp = s.inp := rfl
@[simp] theorem State.goto_out (f : Fsm) : (s.goto f).out = s.out := rfl
@[simp] theorem State.goto_ports (f : Fsm) : (s.goto f).ports = s.ports := rfl
@[simp] theorem State.goto_host (f : Fsm) : (s.goto f).host = s.host := rfl

/-! The raise (R203) -/

@[simp] theorem State.raiseCapacityExceeded_fsm : (s.raiseCapacityExceeded).fsm = .done := rfl
@[simp] theorem State.raiseCapacityExceeded_opr : (s.raiseCapacityExceeded).opr = s.opr := rfl
@[simp] theorem State.raiseCapacityExceeded_len : (s.raiseCapacityExceeded).len = s.len := rfl
@[simp] theorem State.raiseCapacityExceeded_cap : (s.raiseCapacityExceeded).cap = s.cap := rfl
@[simp] theorem State.raiseCapacityExceeded_rpos : (s.raiseCapacityExceeded).rpos = s.rpos := rfl
@[simp] theorem State.raiseCapacityExceeded_wpos : (s.raiseCapacityExceeded).wpos = s.wpos := rfl
@[simp] theorem State.raiseCapacityExceeded_runVal : (s.raiseCapacityExceeded).runVal = s.runVal := rfl
@[simp] theorem State.raiseCapacityExceeded_runCnt : (s.raiseCapacityExceeded).runCnt = s.runCnt := rfl
@[simp] theorem State.raiseCapacityExceeded_pairVal : (s.raiseCapacityExceeded).pairVal = s.pairVal := rfl
@[simp] theorem State.raiseCapacityExceeded_pairCnt : (s.raiseCapacityExceeded).pairCnt = s.pairCnt := rfl
@[simp] theorem State.raiseCapacityExceeded_expRem : (s.raiseCapacityExceeded).expRem = s.expRem := rfl
@[simp] theorem State.raiseCapacityExceeded_capExceeded : (s.raiseCapacityExceeded).capExceeded = true := rfl
@[simp] theorem State.raiseCapacityExceeded_inp : (s.raiseCapacityExceeded).inp = s.inp := rfl
@[simp] theorem State.raiseCapacityExceeded_out : (s.raiseCapacityExceeded).out = s.out := rfl
@[simp] theorem State.raiseCapacityExceeded_ports : (s.raiseCapacityExceeded).ports = s.ports := rfl
@[simp] theorem State.raiseCapacityExceeded_host : (s.raiseCapacityExceeded).host = s.host := rfl

/-! The accepting step (R91) -/

@[simp] theorem State.accept_fsm (op : BitVec 1) (n c : Word) :
    (s.accept op n c).fsm = if op = 0 then .encFetch else .decReadV := rfl
@[simp] theorem State.accept_opr (op : BitVec 1) (n c : Word) : (s.accept op n c).opr = op := rfl
@[simp] theorem State.accept_len (op : BitVec 1) (n c : Word) : (s.accept op n c).len = n := rfl
@[simp] theorem State.accept_cap (op : BitVec 1) (n c : Word) : (s.accept op n c).cap = c := rfl
@[simp] theorem State.accept_rpos (op : BitVec 1) (n c : Word) : (s.accept op n c).rpos = 0 := rfl
@[simp] theorem State.accept_wpos (op : BitVec 1) (n c : Word) : (s.accept op n c).wpos = 0 := rfl
@[simp] theorem State.accept_runVal (op : BitVec 1) (n c : Word) : (s.accept op n c).runVal = s.runVal := rfl
@[simp] theorem State.accept_runCnt (op : BitVec 1) (n c : Word) : (s.accept op n c).runCnt = s.runCnt := rfl
@[simp] theorem State.accept_pairVal (op : BitVec 1) (n c : Word) : (s.accept op n c).pairVal = s.pairVal := rfl
@[simp] theorem State.accept_pairCnt (op : BitVec 1) (n c : Word) : (s.accept op n c).pairCnt = s.pairCnt := rfl
@[simp] theorem State.accept_expRem (op : BitVec 1) (n c : Word) : (s.accept op n c).expRem = s.expRem := rfl
@[simp] theorem State.accept_capExceeded (op : BitVec 1) (n c : Word) : (s.accept op n c).capExceeded = false := rfl
@[simp] theorem State.accept_inp (op : BitVec 1) (n c : Word) : (s.accept op n c).inp = s.inp := rfl
@[simp] theorem State.accept_out (op : BitVec 1) (n c : Word) : (s.accept op n c).out = s.out := rfl
@[simp] theorem State.accept_ports (op : BitVec 1) (n c : Word) : (s.accept op n c).ports = s.ports := rfl
@[simp] theorem State.accept_host (op : BitVec 1) (n c : Word) : (s.accept op n c).host = s.host := rfl

/-! The reset step (R230) -/

@[simp] theorem State.resetRegs_fsm : (s.resetRegs).fsm = .idle := rfl
@[simp] theorem State.resetRegs_opr : (s.resetRegs).opr = 0 := rfl
@[simp] theorem State.resetRegs_len : (s.resetRegs).len = 0 := rfl
@[simp] theorem State.resetRegs_cap : (s.resetRegs).cap = 0 := rfl
@[simp] theorem State.resetRegs_rpos : (s.resetRegs).rpos = 0 := rfl
@[simp] theorem State.resetRegs_wpos : (s.resetRegs).wpos = 0 := rfl
@[simp] theorem State.resetRegs_runVal : (s.resetRegs).runVal = 0 := rfl
@[simp] theorem State.resetRegs_runCnt : (s.resetRegs).runCnt = 0 := rfl
@[simp] theorem State.resetRegs_pairVal : (s.resetRegs).pairVal = 0 := rfl
@[simp] theorem State.resetRegs_pairCnt : (s.resetRegs).pairCnt = 0 := rfl
@[simp] theorem State.resetRegs_expRem : (s.resetRegs).expRem = 0 := rfl
@[simp] theorem State.resetRegs_capExceeded : (s.resetRegs).capExceeded = false := rfl
@[simp] theorem State.resetRegs_inp : (s.resetRegs).inp = s.inp := rfl
@[simp] theorem State.resetRegs_out : (s.resetRegs).out = s.out := rfl
@[simp] theorem State.resetRegs_ports : (s.resetRegs).ports = s.ports := rfl
@[simp] theorem State.resetRegs_host : (s.resetRegs).host = s.host := rfl

/-! A write of `OUT` (R56) -/

@[simp] theorem State.writeOut_fsm (a : Word) (v : Byte) : (s.writeOut a v).fsm = s.fsm := rfl
@[simp] theorem State.writeOut_opr (a : Word) (v : Byte) : (s.writeOut a v).opr = s.opr := rfl
@[simp] theorem State.writeOut_len (a : Word) (v : Byte) : (s.writeOut a v).len = s.len := rfl
@[simp] theorem State.writeOut_cap (a : Word) (v : Byte) : (s.writeOut a v).cap = s.cap := rfl
@[simp] theorem State.writeOut_rpos (a : Word) (v : Byte) : (s.writeOut a v).rpos = s.rpos := rfl
@[simp] theorem State.writeOut_wpos (a : Word) (v : Byte) : (s.writeOut a v).wpos = s.wpos := rfl
@[simp] theorem State.writeOut_runVal (a : Word) (v : Byte) : (s.writeOut a v).runVal = s.runVal := rfl
@[simp] theorem State.writeOut_runCnt (a : Word) (v : Byte) : (s.writeOut a v).runCnt = s.runCnt := rfl
@[simp] theorem State.writeOut_pairVal (a : Word) (v : Byte) : (s.writeOut a v).pairVal = s.pairVal := rfl
@[simp] theorem State.writeOut_pairCnt (a : Word) (v : Byte) : (s.writeOut a v).pairCnt = s.pairCnt := rfl
@[simp] theorem State.writeOut_expRem (a : Word) (v : Byte) : (s.writeOut a v).expRem = s.expRem := rfl
@[simp] theorem State.writeOut_capExceeded (a : Word) (v : Byte) : (s.writeOut a v).capExceeded = s.capExceeded := rfl
@[simp] theorem State.writeOut_inp (a : Word) (v : Byte) : (s.writeOut a v).inp = s.inp := rfl
@[simp] theorem State.writeOut_out (a : Word) (v : Byte) : (s.writeOut a v).out = s.out.write a.toNat v := rfl
@[simp] theorem State.writeOut_ports (a : Word) (v : Byte) : (s.writeOut a v).ports = s.ports := rfl
@[simp] theorem State.writeOut_host (a : Word) (v : Byte) : (s.writeOut a v).host = s.host := rfl

/-! The host's load of `IN` (R175) -/

@[simp] theorem State.loadIn_fsm (bs : List Byte) : (s.loadIn bs).fsm = s.fsm := rfl
@[simp] theorem State.loadIn_opr (bs : List Byte) : (s.loadIn bs).opr = s.opr := rfl
@[simp] theorem State.loadIn_len (bs : List Byte) : (s.loadIn bs).len = s.len := rfl
@[simp] theorem State.loadIn_cap (bs : List Byte) : (s.loadIn bs).cap = s.cap := rfl
@[simp] theorem State.loadIn_rpos (bs : List Byte) : (s.loadIn bs).rpos = s.rpos := rfl
@[simp] theorem State.loadIn_wpos (bs : List Byte) : (s.loadIn bs).wpos = s.wpos := rfl
@[simp] theorem State.loadIn_runVal (bs : List Byte) : (s.loadIn bs).runVal = s.runVal := rfl
@[simp] theorem State.loadIn_runCnt (bs : List Byte) : (s.loadIn bs).runCnt = s.runCnt := rfl
@[simp] theorem State.loadIn_pairVal (bs : List Byte) : (s.loadIn bs).pairVal = s.pairVal := rfl
@[simp] theorem State.loadIn_pairCnt (bs : List Byte) : (s.loadIn bs).pairCnt = s.pairCnt := rfl
@[simp] theorem State.loadIn_expRem (bs : List Byte) : (s.loadIn bs).expRem = s.expRem := rfl
@[simp] theorem State.loadIn_capExceeded (bs : List Byte) : (s.loadIn bs).capExceeded = s.capExceeded := rfl
@[simp] theorem State.loadIn_inp (bs : List Byte) : (s.loadIn bs).inp = s.inp.writeBytes 0 bs := rfl
@[simp] theorem State.loadIn_out (bs : List Byte) : (s.loadIn bs).out = s.out := rfl
@[simp] theorem State.loadIn_ports (bs : List Byte) : (s.loadIn bs).ports = s.ports := rfl
@[simp] theorem State.loadIn_host (bs : List Byte) : (s.loadIn bs).host = s.host := rfl

/-! A command on the ports (R234) -/

@[simp] theorem State.driveCommand_fsm (op : BitVec 1) (n c : Word) : (s.driveCommand op n c).fsm = s.fsm := rfl
@[simp] theorem State.driveCommand_opr (op : BitVec 1) (n c : Word) : (s.driveCommand op n c).opr = s.opr := rfl
@[simp] theorem State.driveCommand_len (op : BitVec 1) (n c : Word) : (s.driveCommand op n c).len = s.len := rfl
@[simp] theorem State.driveCommand_cap (op : BitVec 1) (n c : Word) : (s.driveCommand op n c).cap = s.cap := rfl
@[simp] theorem State.driveCommand_rpos (op : BitVec 1) (n c : Word) : (s.driveCommand op n c).rpos = s.rpos := rfl
@[simp] theorem State.driveCommand_wpos (op : BitVec 1) (n c : Word) : (s.driveCommand op n c).wpos = s.wpos := rfl
@[simp] theorem State.driveCommand_runVal (op : BitVec 1) (n c : Word) :
    (s.driveCommand op n c).runVal = s.runVal := rfl
@[simp] theorem State.driveCommand_runCnt (op : BitVec 1) (n c : Word) :
    (s.driveCommand op n c).runCnt = s.runCnt := rfl
@[simp] theorem State.driveCommand_pairVal (op : BitVec 1) (n c : Word) :
    (s.driveCommand op n c).pairVal = s.pairVal := rfl
@[simp] theorem State.driveCommand_pairCnt (op : BitVec 1) (n c : Word) :
    (s.driveCommand op n c).pairCnt = s.pairCnt := rfl
@[simp] theorem State.driveCommand_expRem (op : BitVec 1) (n c : Word) :
    (s.driveCommand op n c).expRem = s.expRem := rfl
@[simp] theorem State.driveCommand_capExceeded (op : BitVec 1) (n c : Word) :
    (s.driveCommand op n c).capExceeded = s.capExceeded := rfl
@[simp] theorem State.driveCommand_inp (op : BitVec 1) (n c : Word) : (s.driveCommand op n c).inp = s.inp := rfl
@[simp] theorem State.driveCommand_out (op : BitVec 1) (n c : Word) : (s.driveCommand op n c).out = s.out := rfl
@[simp] theorem State.driveCommand_ports (op : BitVec 1) (n c : Word) :
    (s.driveCommand op n c).ports = { rst := false, start := true, op := op, inLen := n, outCap := c } := rfl
@[simp] theorem State.driveCommand_host (op : BitVec 1) (n c : Word) : (s.driveCommand op n c).host = s.host := rfl

/-! `start` lowered (R238) -/

@[simp] theorem State.lowerStart_fsm : (s.lowerStart).fsm = s.fsm := rfl
@[simp] theorem State.lowerStart_opr : (s.lowerStart).opr = s.opr := rfl
@[simp] theorem State.lowerStart_len : (s.lowerStart).len = s.len := rfl
@[simp] theorem State.lowerStart_cap : (s.lowerStart).cap = s.cap := rfl
@[simp] theorem State.lowerStart_rpos : (s.lowerStart).rpos = s.rpos := rfl
@[simp] theorem State.lowerStart_wpos : (s.lowerStart).wpos = s.wpos := rfl
@[simp] theorem State.lowerStart_runVal : (s.lowerStart).runVal = s.runVal := rfl
@[simp] theorem State.lowerStart_runCnt : (s.lowerStart).runCnt = s.runCnt := rfl
@[simp] theorem State.lowerStart_pairVal : (s.lowerStart).pairVal = s.pairVal := rfl
@[simp] theorem State.lowerStart_pairCnt : (s.lowerStart).pairCnt = s.pairCnt := rfl
@[simp] theorem State.lowerStart_expRem : (s.lowerStart).expRem = s.expRem := rfl
@[simp] theorem State.lowerStart_capExceeded : (s.lowerStart).capExceeded = s.capExceeded := rfl
@[simp] theorem State.lowerStart_inp : (s.lowerStart).inp = s.inp := rfl
@[simp] theorem State.lowerStart_out : (s.lowerStart).out = s.out := rfl
@[simp] theorem State.lowerStart_ports : (s.lowerStart).ports = { s.ports with start := false } := rfl
@[simp] theorem State.lowerStart_host : (s.lowerStart).host = s.host := rfl

/-! The host's wait (R175) -/

@[simp] theorem State.await_fsm (p : HostPhase) : (s.await p).fsm = s.fsm := rfl
@[simp] theorem State.await_opr (p : HostPhase) : (s.await p).opr = s.opr := rfl
@[simp] theorem State.await_len (p : HostPhase) : (s.await p).len = s.len := rfl
@[simp] theorem State.await_cap (p : HostPhase) : (s.await p).cap = s.cap := rfl
@[simp] theorem State.await_rpos (p : HostPhase) : (s.await p).rpos = s.rpos := rfl
@[simp] theorem State.await_wpos (p : HostPhase) : (s.await p).wpos = s.wpos := rfl
@[simp] theorem State.await_runVal (p : HostPhase) : (s.await p).runVal = s.runVal := rfl
@[simp] theorem State.await_runCnt (p : HostPhase) : (s.await p).runCnt = s.runCnt := rfl
@[simp] theorem State.await_pairVal (p : HostPhase) : (s.await p).pairVal = s.pairVal := rfl
@[simp] theorem State.await_pairCnt (p : HostPhase) : (s.await p).pairCnt = s.pairCnt := rfl
@[simp] theorem State.await_expRem (p : HostPhase) : (s.await p).expRem = s.expRem := rfl
@[simp] theorem State.await_capExceeded (p : HostPhase) : (s.await p).capExceeded = s.capExceeded := rfl
@[simp] theorem State.await_inp (p : HostPhase) : (s.await p).inp = s.inp := rfl
@[simp] theorem State.await_out (p : HostPhase) : (s.await p).out = s.out := rfl
@[simp] theorem State.await_ports (p : HostPhase) : (s.await p).ports = s.ports := rfl
@[simp] theorem State.await_host (p : HostPhase) : (s.await p).host = { s.host with phase := p } := rfl

/-! A diagnostic (R180) -/

@[simp] theorem State.diagnose_fsm (d : Diagnostic) : (s.diagnose d).fsm = s.fsm := rfl
@[simp] theorem State.diagnose_opr (d : Diagnostic) : (s.diagnose d).opr = s.opr := rfl
@[simp] theorem State.diagnose_len (d : Diagnostic) : (s.diagnose d).len = s.len := rfl
@[simp] theorem State.diagnose_cap (d : Diagnostic) : (s.diagnose d).cap = s.cap := rfl
@[simp] theorem State.diagnose_rpos (d : Diagnostic) : (s.diagnose d).rpos = s.rpos := rfl
@[simp] theorem State.diagnose_wpos (d : Diagnostic) : (s.diagnose d).wpos = s.wpos := rfl
@[simp] theorem State.diagnose_runVal (d : Diagnostic) : (s.diagnose d).runVal = s.runVal := rfl
@[simp] theorem State.diagnose_runCnt (d : Diagnostic) : (s.diagnose d).runCnt = s.runCnt := rfl
@[simp] theorem State.diagnose_pairVal (d : Diagnostic) : (s.diagnose d).pairVal = s.pairVal := rfl
@[simp] theorem State.diagnose_pairCnt (d : Diagnostic) : (s.diagnose d).pairCnt = s.pairCnt := rfl
@[simp] theorem State.diagnose_expRem (d : Diagnostic) : (s.diagnose d).expRem = s.expRem := rfl
@[simp] theorem State.diagnose_capExceeded (d : Diagnostic) : (s.diagnose d).capExceeded = s.capExceeded := rfl
@[simp] theorem State.diagnose_inp (d : Diagnostic) : (s.diagnose d).inp = s.inp := rfl
@[simp] theorem State.diagnose_out (d : Diagnostic) : (s.diagnose d).out = s.out := rfl
@[simp] theorem State.diagnose_ports (d : Diagnostic) : (s.diagnose d).ports = s.ports := rfl
@[simp] theorem State.diagnose_host (d : Diagnostic) :
    (s.diagnose d).host = { s.host with diags := s.host.diags ++ [d] } := rfl

/-! The end of a sequence (R179) -/

@[simp] theorem State.finishWith_fsm (code : Nat) : (s.finishWith code).fsm = s.fsm := rfl
@[simp] theorem State.finishWith_opr (code : Nat) : (s.finishWith code).opr = s.opr := rfl
@[simp] theorem State.finishWith_len (code : Nat) : (s.finishWith code).len = s.len := rfl
@[simp] theorem State.finishWith_cap (code : Nat) : (s.finishWith code).cap = s.cap := rfl
@[simp] theorem State.finishWith_rpos (code : Nat) : (s.finishWith code).rpos = s.rpos := rfl
@[simp] theorem State.finishWith_wpos (code : Nat) : (s.finishWith code).wpos = s.wpos := rfl
@[simp] theorem State.finishWith_runVal (code : Nat) : (s.finishWith code).runVal = s.runVal := rfl
@[simp] theorem State.finishWith_runCnt (code : Nat) : (s.finishWith code).runCnt = s.runCnt := rfl
@[simp] theorem State.finishWith_pairVal (code : Nat) : (s.finishWith code).pairVal = s.pairVal := rfl
@[simp] theorem State.finishWith_pairCnt (code : Nat) : (s.finishWith code).pairCnt = s.pairCnt := rfl
@[simp] theorem State.finishWith_expRem (code : Nat) : (s.finishWith code).expRem = s.expRem := rfl
@[simp] theorem State.finishWith_capExceeded (code : Nat) : (s.finishWith code).capExceeded = s.capExceeded := rfl
@[simp] theorem State.finishWith_inp (code : Nat) : (s.finishWith code).inp = s.inp := rfl
@[simp] theorem State.finishWith_out (code : Nat) : (s.finishWith code).out = s.out := rfl
@[simp] theorem State.finishWith_ports (code : Nat) : (s.finishWith code).ports = s.ports := rfl
@[simp] theorem State.finishWith_host (code : Nat) :
    (s.finishWith code).host = { s.host with phase := .idle, exitCode := some code } := rfl

/-! A move taken off the script -/

@[simp] theorem State.popMove_fsm (rest : List HostMove) : (s.popMove rest).fsm = s.fsm := rfl
@[simp] theorem State.popMove_opr (rest : List HostMove) : (s.popMove rest).opr = s.opr := rfl
@[simp] theorem State.popMove_len (rest : List HostMove) : (s.popMove rest).len = s.len := rfl
@[simp] theorem State.popMove_cap (rest : List HostMove) : (s.popMove rest).cap = s.cap := rfl
@[simp] theorem State.popMove_rpos (rest : List HostMove) : (s.popMove rest).rpos = s.rpos := rfl
@[simp] theorem State.popMove_wpos (rest : List HostMove) : (s.popMove rest).wpos = s.wpos := rfl
@[simp] theorem State.popMove_runVal (rest : List HostMove) : (s.popMove rest).runVal = s.runVal := rfl
@[simp] theorem State.popMove_runCnt (rest : List HostMove) : (s.popMove rest).runCnt = s.runCnt := rfl
@[simp] theorem State.popMove_pairVal (rest : List HostMove) : (s.popMove rest).pairVal = s.pairVal := rfl
@[simp] theorem State.popMove_pairCnt (rest : List HostMove) : (s.popMove rest).pairCnt = s.pairCnt := rfl
@[simp] theorem State.popMove_expRem (rest : List HostMove) : (s.popMove rest).expRem = s.expRem := rfl
@[simp] theorem State.popMove_capExceeded (rest : List HostMove) : (s.popMove rest).capExceeded = s.capExceeded := rfl
@[simp] theorem State.popMove_inp (rest : List HostMove) : (s.popMove rest).inp = s.inp := rfl
@[simp] theorem State.popMove_out (rest : List HostMove) : (s.popMove rest).out = s.out := rfl
@[simp] theorem State.popMove_ports (rest : List HostMove) : (s.popMove rest).ports = s.ports := rfl
@[simp] theorem State.popMove_host (rest : List HostMove) :
    (s.popMove rest).host = { s.host with script := rest } := rfl

end Sys2Proof.Machine
end

