-- ==== Sys2Proof/Laws/Step.lean ====
section
/-! SUPPORT. What a step can do, said once. `BlockMove` lists the rows of the transition table (40_sequencer.md R95) with the
whole next state of each; `blockStep_iff` says that a step of the block is one of them. The host's turn has one lemma for what it
keeps. -/

namespace Sys2Proof.Machine

/-- The block is not busy in `IDLE` and `DONE` only (R21). -/
theorem State.busy_eq_false_iff (s : State) : s.busy = false ↔ s.fsm = .idle ∨ s.fsm = .done := by
  cases h : s.fsm <;> simp [State.busy, h, Fsm.busy]

/-- The moves of the block: one constructor per row of R95, the two waiting states together. -/
inductive BlockMove (s : State) : State → Prop where
  | reset (r : s.ports.rst = true) : BlockMove s s.resetRegs
  | hold (r : s.ports.rst = false) (f : s.fsm = .idle ∨ s.fsm = .done) (w : s.ports.start = false) : BlockMove s s
  | accept (r : s.ports.rst = false) (f : s.fsm = .idle ∨ s.fsm = .done) (w : s.ports.start = true) :
      BlockMove s (s.accept s.ports.op s.ports.inLen s.ports.outCap)
  | inputEnd (r : s.ports.rst = false) (f : s.fsm = .encFetch) (e : s.rpos = s.len) : BlockMove s (s.goto .done)
  | fetch (r : s.ports.rst = false) (f : s.fsm = .encFetch) (e : s.rpos ≠ s.len) :
      BlockMove s { s with runVal := s.scanByte, runCnt := 1, fsm := .encCount }
  | count (r : s.ports.rst = false) (f : s.fsm = .encCount) (g : s.runGoesOn = true) :
      BlockMove s { s with runCnt := s.runCnt + 1 }
  | closeRun (r : s.ports.rst = false) (f : s.fsm = .encCount) (g : s.runGoesOn = false) :
      BlockMove s (s.goto .encEmitV)
  | raiseEnc (r : s.ports.rst = false) (f : s.fsm = .encEmitV) (n : s.noRoomForPair = true) :
      BlockMove s s.raiseCapacityExceeded
  | emitValue (r : s.ports.rst = false) (f : s.fsm = .encEmitV) (n : s.noRoomForPair = false) :
      BlockMove s ((s.writeOut s.valueAddr s.runVal).goto .encEmitC)
  | emitCount (r : s.ports.rst = false) (f : s.fsm = .encEmitC) :
      BlockMove s { s.writeOut s.countAddr s.runCnt with wpos := s.wpos + 2, rpos := s.runEnd, fsm := .encFetch }
  | payloadEnd (r : s.ports.rst = false) (f : s.fsm = .decReadV) (n : s.noPairLeft = true) : BlockMove s (s.goto .done)
  | readValue (r : s.ports.rst = false) (f : s.fsm = .decReadV) (n : s.noPairLeft = false) :
      BlockMove s { s with pairVal := s.scanByte, fsm := .decReadC }
  | readCount (r : s.ports.rst = false) (f : s.fsm = .decReadC) :
      BlockMove s { s with pairCnt := s.countByte, fsm := .decCheck }
  | raiseDec (r : s.ports.rst = false) (f : s.fsm = .decCheck) (n : s.noRoomForRun = true) :
      BlockMove s s.raiseCapacityExceeded
  | consume (r : s.ports.rst = false) (f : s.fsm = .decCheck) (n : s.noRoomForRun = false) :
      BlockMove s { s with expRem := s.pairCnt, rpos := s.rpos + 2, fsm := .decExpand }
  | runDone (r : s.ports.rst = false) (f : s.fsm = .decExpand) (z : s.expRem = 0) : BlockMove s (s.goto .decReadV)
  | copy (r : s.ports.rst = false) (f : s.fsm = .decExpand) (z : s.expRem ≠ 0) :
      BlockMove s { s.writeOut s.valueAddr s.pairVal with wpos := s.wpos + 1, expRem := s.expRem - 1 }

/-- The fetch of a state is the micro-operation of its row in R77's table. -/
theorem State.fetch_eq (s : State) :
    s.fetch = .ok (match s.fsm with
      | .idle => .idleWait | .encFetch => .encFetch | .encCount => .encCount | .encEmitV => .encEmitV
      | .encEmitC => .encEmitC | .decReadV => .decReadV | .decReadC => .decReadC | .decCheck => .decCheck
      | .decExpand => .decExpand | .done => .doneHold) := by
  unfold State.fetch
  cases s.fsm <;> rfl

/-- The move a block step makes. -/
theorem blockStep_move (s : State) : ∃ t, blockStep s = .next t ∧ BlockMove s t := by
  cases r : s.ports.rst
  · simp only [blockStep, r, Bool.false_eq_true, if_false, State.fetch_eq]
    cases f : s.fsm <;> simp only [exec]
    · cases w : s.ports.start <;> simp only [execIdleWait, waitForStart, w, Bool.false_eq_true, if_false, if_true]
      · exact ⟨_, rfl, .hold r (.inl f) w⟩
      · exact ⟨_, rfl, .accept r (.inl f) w⟩
    · simp only [execEncFetch, State.inputEnded, beq_iff_eq]
      split
      · exact ⟨_, rfl, .inputEnd r f ‹_›⟩
      · exact ⟨_, rfl, .fetch r f ‹_›⟩
    · cases g : s.runGoesOn <;> simp only [execEncCount, g, Bool.false_eq_true, if_false, if_true]
      · exact ⟨_, rfl, .closeRun r f g⟩
      · exact ⟨_, rfl, .count r f g⟩
    · cases n : s.noRoomForPair <;> simp only [execEncEmitV, n, Bool.false_eq_true, if_false, if_true]
      · exact ⟨_, rfl, .emitValue r f n⟩
      · exact ⟨_, rfl, .raiseEnc r f n⟩
    · exact ⟨_, rfl, .emitCount r f⟩
    · cases n : s.noPairLeft <;> simp only [execDecReadV, n, Bool.false_eq_true, if_false, if_true]
      · exact ⟨_, rfl, .readValue r f n⟩
      · exact ⟨_, rfl, .payloadEnd r f n⟩
    · exact ⟨_, rfl, .readCount r f⟩
    · cases n : s.noRoomForRun <;> simp only [execDecCheck, n, Bool.false_eq_true, if_false, if_true]
      · exact ⟨_, rfl, .consume r f n⟩
      · exact ⟨_, rfl, .raiseDec r f n⟩
    · simp only [execDecExpand]
      split
      · exact ⟨_, rfl, .runDone r f ‹_›⟩
      · exact ⟨_, rfl, .copy r f ‹_›⟩
    · cases w : s.ports.start <;> simp only [execDoneHold, waitForStart, w, Bool.false_eq_true, if_false, if_true]
      · exact ⟨_, rfl, .hold r (.inr f) w⟩
      · exact ⟨_, rfl, .accept r (.inr f) w⟩
  · exact ⟨_, by simp [blockStep, r], .reset r⟩

/-- A state has one move only: the rows of R95 exclude each other. -/
theorem BlockMove.unique {s t u : State} (h : BlockMove s t) (h' : BlockMove s u) : t = u := by
  cases h <;> cases h' <;> simp_all

/-- A step of the block is one of the moves of R95, and each of them is the step where its condition holds. -/
theorem blockStep_iff (s t : State) : blockStep s = .next t ↔ BlockMove s t := by
  obtain ⟨u, hu, hm⟩ := blockStep_move s
  constructor
  · intro h
    rw [hu] at h
    cases h
    exact hm
  · intro h
    rw [hu, hm.unique h]

/-- A step of the system that answers a next state is a block step and then the host's turn. -/
theorem step_next {s t : State} (h : step s = .next t) : ∃ u, BlockMove s u ∧ hostTurn u = .next t := by
  obtain ⟨u, hu, hm⟩ := blockStep_move s
  simp only [step, hu] at h
  exact ⟨u, hm, h⟩

/-- A move of the block leaves `IN`, the ports and the host alone. -/
theorem BlockMove.keeps {s t : State} (h : BlockMove s t) : t.inp = s.inp ∧ t.ports = s.ports ∧ t.host = s.host := by
  cases h <;> exact ⟨rfl, rfl, rfl⟩

/-- `read_whole_file` changes at most the diagnostics. -/
theorem readWholeFile_cases (s : State) (p : Path) :
    (s.readWholeFile p).2 = s ∨ (s.readWholeFile p).2 = s.diagnose .inputUnreadable := by
  unfold State.readWholeFile
  split
  · exact .inl rfl
  · exact .inr rfl

/-- What a host sequence that begins can do: end at once with the registers, the buffers and the ports as they were, or
load bytes into `IN` and put a command on the ports; the host owned the buffers in either case. -/
theorem compress_cases {p q : Path} {s t : State} (h : execCompress p q s = .next t) :
    s.hostFree = true ∧
      ((∃ hs, t = { s with host := hs }) ∨
        ∃ bs pt hs, bs.length < 2 ^ 64 ∧ t = { s with inp := s.inp.writeBytes 0 bs, ports := pt, host := hs }) := by
  unfold execCompress at h
  split at h
  · cases h
  · rename_i hf
    refine ⟨by simpa using hf, ?_⟩
    simp only at h
    split at h
    · cases h
      rcases readWholeFile_cases s p with e | e <;> rw [e] <;> exact .inl ⟨_, rfl⟩
    · split at h
      · cases h
      · cases h
        rcases readWholeFile_cases s p with e | e <;> rw [e] <;> exact .inr ⟨_, _, _, by omega, rfl⟩

theorem decompress_cases {p q : Path} {s t : State} (h : execDecompress p q s = .next t) :
    s.hostFree = true ∧
      ((∃ hs, t = { s with host := hs }) ∨
        ∃ bs pt hs, bs.length < 2 ^ 64 ∧ t = { s with inp := s.inp.writeBytes 0 bs, ports := pt, host := hs }) := by
  unfold execDecompress at h
  split at h
  · cases h
  · rename_i hf
    refine ⟨by simpa using hf, ?_⟩
    simp only at h
    split at h
    · cases h
      rcases readWholeFile_cases s p with e | e <;> rw [e] <;> exact .inl ⟨_, rfl⟩
    · split at h
      · cases h
        rcases readWholeFile_cases s p with e | e <;> rw [e] <;> exact .inl ⟨_, rfl⟩
      · split at h
        · cases h
        · cases h
          rcases readWholeFile_cases s p with e | e <;> rw [e] <;> exact .inr ⟨_, _, _, by omega, rfl⟩

/-- `write_whole_file` that answers changes the host only. -/
theorem writeWholeFile_cases {p : Path} {bs : List Byte} {s t : State} (h : s.writeWholeFile p bs = .next t) :
    p ∉ s.host.unwritable ∧ t = { s with host := { s.host with files := putFile s.host.files p bs } } := by
  unfold State.writeWholeFile at h
  split at h
  · cases h
  · cases h
    exact ⟨‹_›, rfl⟩

/-- The reports and the end of a sequence change the host only, and not its script. -/
theorem reportCapacity_eq (s : State) :
    ∃ hs, s.reportCapacity = { s with host := hs } ∧ hs.script = s.host.script := by
  unfold State.reportCapacity
  split
  · exact ⟨_, rfl, rfl⟩
  · exact ⟨s.host, rfl, rfl⟩

theorem reportSize_eq (s : State) (e : Word) :
    ∃ hs, s.reportSize e = { s with host := hs } ∧ hs.script = s.host.script := by
  unfold State.reportSize
  split
  · exact ⟨_, rfl, rfl⟩
  · exact ⟨s.host, rfl, rfl⟩

theorem finishCompress_cases {p : Path} {n : Nat} {s t : State} (h : finishCompress p n s = .next t) :
    ∃ hs, t = { s with host := hs } ∧ hs.script = s.host.script := by
  obtain ⟨_, e⟩ := writeWholeFile_cases h
  obtain ⟨hs, e', hk⟩ := reportCapacity_eq s
  rw [e'] at e
  exact ⟨_, e, hk⟩

theorem finishDecompress_cases {p : Path} {n : Word} {s t : State} (h : finishDecompress p n s = .next t) :
    ∃ hs, t = { s with host := hs } ∧ hs.script = s.host.script := by
  obtain ⟨_, e⟩ := writeWholeFile_cases h
  obtain ⟨hs, e', hk⟩ := reportCapacity_eq s
  rw [e'] at e
  obtain ⟨hs', e'', hk'⟩ := reportSize_eq { s with host := hs } n
  rw [e''] at e
  exact ⟨_, e, hk'.trans hk⟩

/-- What the host can change in one turn: the ports and itself, and of the buffers it owns bytes of `IN` or one byte of
`OUT`. It never changes a register of the block (R170, R182). -/
inductive HostChange (s : State) : State → Prop where
  | outside (pt : Ports) (hs : HostState) : HostChange s { s with ports := pt, host := hs }
  | load (own : s.hostOwns = true) (a : Nat) (bs : List Byte) (fits : a + bs.length ≤ 2 ^ 64) (pt : Ports)
      (hs : HostState) : HostChange s { s with inp := s.inp.writeBytes a bs, ports := pt, host := hs }
  | store (own : s.hostOwns = true) (a : Word) (v : Byte) (pt : Ports) (hs : HostState) :
      HostChange s { s with out := s.out.write a.toNat v, ports := pt, host := hs }

theorem HostChange.same (s : State) : HostChange s s := .outside s.ports s.host

/-- A change after the ports and the host have changed is a change. -/
theorem HostChange.after_outside {s t : State} {pt : Ports} {hs : HostState}
    (h : HostChange { s with ports := pt, host := hs } t) : HostChange s t := by
  cases h with
  | outside pt hs => exact HostChange.outside (s := s) pt hs
  | load own a bs fits pt hs => exact HostChange.load (s := s) own a bs fits pt hs
  | store own a v pt hs => exact HostChange.store (s := s) own a v pt hs

/-- A change after which the port levels are driven is a change. -/
theorem HostChange.then_drive {s t : State} (h : HostChange s t) : HostChange s t.driveNext := by
  unfold State.driveNext
  cases h <;> split
  · exact .outside _ _
  · exact .outside _ _
  · exact .load ‹_› _ _ ‹_› _ _
  · exact .load ‹_› _ _ ‹_› _ _
  · exact .store ‹_› _ _ _ _
  · exact .store ‹_› _ _ _ _

/-- Driving the port levels changes the ports and the script only. -/
theorem driveNext_cases (s : State) : ∃ pt hs, s.driveNext = { s with ports := pt, host := hs } := by
  unfold State.driveNext
  split
  · exact ⟨_, _, rfl⟩
  · exact ⟨s.ports, s.host, rfl⟩

theorem thenDrive_next {r : Result} {t : State} (h : thenDrive r = .next t) :
    ∃ u, r = .next u ∧ t = u.driveNext := by
  cases r with
  | next u => cases h; exact ⟨u, rfl, rfl⟩
  | fault e => cases h
  | refused e => cases h

/-- A sequence that begins, with the port levels driven after it. -/
theorem compress_change {p q : Path} {rest : List HostMove} {s t : State}
    (h : thenDrive (execCompress p q (s.popMove rest)) = .next t) : HostChange s t := by
  obtain ⟨u, hu, rfl⟩ := thenDrive_next h
  obtain ⟨hf, ⟨hs, rfl⟩ | ⟨bs, pt, hs, hl, rfl⟩⟩ := compress_cases hu
  · exact (HostChange.outside s.ports hs).then_drive
  · simp only [State.hostFree, Bool.and_eq_true] at hf
    exact (HostChange.load (s := s) hf.1 0 bs (by omega) pt hs).then_drive

theorem decompress_change {p q : Path} {rest : List HostMove} {s t : State}
    (h : thenDrive (execDecompress p q (s.popMove rest)) = .next t) : HostChange s t := by
  obtain ⟨u, hu, rfl⟩ := thenDrive_next h
  obtain ⟨hf, ⟨hs, rfl⟩ | ⟨bs, pt, hs, hl, rfl⟩⟩ := decompress_cases hu
  · exact (HostChange.outside s.ports hs).then_drive
  · simp only [State.hostFree, Bool.and_eq_true] at hf
    exact (HostChange.load (s := s) hf.1 0 bs (by omega) pt hs).then_drive

/-- What one move of the host can change. -/
theorem hostMove_change {m : HostMove} {rest : List HostMove} {s t : State} (h : hostMove m rest s = .next t) :
    HostChange s t := by
  cases m with
  | drive p => cases h; exact .outside p _
  | writeIn a v =>
    simp only [hostMove] at h
    split at h <;> cases h
    · exact .load ‹_› a.toNat [v] (by simp; omega) s.ports _
    · exact .same s
  | writeOut a v =>
    simp only [hostMove] at h
    split at h <;> cases h
    · exact .store ‹_› a v s.ports _
    · exact .same s
  | copyBack =>
    simp only [hostMove] at h
    split at h <;> cases h
    · exact .load ‹_› 0 s.resultBytes (by simp [State.resultBytes, State.written]; omega) s.ports _
    · exact .same s
  | compress p q =>
    simp only [hostMove] at h
    split at h
    · exact compress_change h
    · cases h; exact .same s
  | decompress p q =>
    simp only [hostMove] at h
    split at h
    · exact decompress_change h
    · cases h; exact .same s
  | commandLine args =>
    simp only [hostMove] at h
    split at h
    · cases h; exact .outside s.ports _
    · split at h
      · exact compress_change h
      · cases h; exact .same s
    · split at h
      · exact decompress_change h
      · cases h; exact .same s

/-- What the host can change beside a sequence that waits. -/
theorem whileWaiting_change {s t : State} (h : whileWaiting s = .next t) : HostChange s t := by
  unfold whileWaiting at h
  split at h
  · cases h; exact .same s
  · split at h
    · exact hostMove_change h
    · cases h; exact .same s

/-- What the host's turn can change. -/
theorem hostTurn_change {s t : State} (h : hostTurn s = .next t) : HostChange s t := by
  unfold hostTurn at h
  split at h
  · split at h
    · cases h; exact .same s
    · exact hostMove_change h
  · split at h
    · exact (whileWaiting_change h).after_outside
    · split at h
      · obtain ⟨hs, rfl, _⟩ := finishCompress_cases h
        obtain ⟨pt, hs', e⟩ := driveNext_cases s
        rw [e]
        exact .outside pt hs
      · exact whileWaiting_change h
  · split at h
    · exact (whileWaiting_change h).after_outside
    · split at h
      · obtain ⟨hs, rfl, _⟩ := finishDecompress_cases h
        obtain ⟨pt, hs', e⟩ := driveNext_cases s
        rw [e]
        exact .outside pt hs
      · exact whileWaiting_change h

end Sys2Proof.Machine
end

