-- ==== Sys2Proof/Laws/HostSide.lean ====
section
/-! SUPPORT. The host's files (43_host_container.md R178), its turn while it waits (R175 step 4, R176 step 6), and the
host's own run of the machine. -/

namespace Sys2Proof.Machine

/-- A file after a file is written: the new bytes at its path, the old ones elsewhere. -/
theorem findFile_putFile (files : List (Path × List Byte)) (p q : Path) (bytes : List Byte) :
    findFile (putFile files q bytes) p = if p = q then some bytes else findFile files p := by
  induction files with
  | nil => simp [putFile, findFile, eq_comm]
  | cons x files ih =>
    obtain ⟨r, c⟩ := x
    simp only [putFile]
    split
    · rename_i h
      subst h
      simp only [findFile]
      by_cases hp : p = r
      · simp [hp]
      · simp [hp, Ne.symm hp]
    · rename_i h
      simp only [findFile, ih]
      by_cases hp : r = p
      · subst hp; simp [h]
      · simp [hp]

/-- Beside a sequence that waits for a busy block, a host whose next move is not to drive the ports does nothing. -/
theorem whileWaiting_busy (s : State) (b : s.busy = true)
    (hd : ∀ p rest, s.host.script ≠ .drive p :: rest) : whileWaiting s = .next s := by
  have ho : s.hostOwns = false := by simp [State.hostOwns, b]
  unfold whileWaiting
  split
  · rfl
  · rename_i m rest hm
    cases m with
    | drive p => exact absurd hm (hd p rest)
    | _ => simp [HostMove.plain, hostMove, ho]

/-! Driving the port levels changes the ports and the script only. -/

@[simp] theorem State.driveNext_fsm (s : State) : s.driveNext.fsm = s.fsm := by
  unfold State.driveNext; split <;> rfl
@[simp] theorem State.driveNext_opr (s : State) : s.driveNext.opr = s.opr := by
  unfold State.driveNext; split <;> rfl
@[simp] theorem State.driveNext_len (s : State) : s.driveNext.len = s.len := by
  unfold State.driveNext; split <;> rfl
@[simp] theorem State.driveNext_cap (s : State) : s.driveNext.cap = s.cap := by
  unfold State.driveNext; split <;> rfl
@[simp] theorem State.driveNext_rpos (s : State) : s.driveNext.rpos = s.rpos := by
  unfold State.driveNext; split <;> rfl
@[simp] theorem State.driveNext_wpos (s : State) : s.driveNext.wpos = s.wpos := by
  unfold State.driveNext; split <;> rfl
@[simp] theorem State.driveNext_runVal (s : State) : s.driveNext.runVal = s.runVal := by
  unfold State.driveNext; split <;> rfl
@[simp] theorem State.driveNext_runCnt (s : State) : s.driveNext.runCnt = s.runCnt := by
  unfold State.driveNext; split <;> rfl
@[simp] theorem State.driveNext_pairVal (s : State) : s.driveNext.pairVal = s.pairVal := by
  unfold State.driveNext; split <;> rfl
@[simp] theorem State.driveNext_pairCnt (s : State) : s.driveNext.pairCnt = s.pairCnt := by
  unfold State.driveNext; split <;> rfl
@[simp] theorem State.driveNext_expRem (s : State) : s.driveNext.expRem = s.expRem := by
  unfold State.driveNext; split <;> rfl
@[simp] theorem State.driveNext_capExceeded (s : State) : s.driveNext.capExceeded = s.capExceeded := by
  unfold State.driveNext; split <;> rfl
@[simp] theorem State.driveNext_inp (s : State) : s.driveNext.inp = s.inp := by
  unfold State.driveNext; split <;> rfl
@[simp] theorem State.driveNext_out (s : State) : s.driveNext.out = s.out := by
  unfold State.driveNext; split <;> rfl
@[simp] theorem State.driveNext_phase (s : State) : s.driveNext.host.phase = s.host.phase := by
  unfold State.driveNext; split <;> rfl
@[simp] theorem State.driveNext_files (s : State) : s.driveNext.host.files = s.host.files := by
  unfold State.driveNext; split <;> rfl
@[simp] theorem State.driveNext_unwritable (s : State) : s.driveNext.host.unwritable = s.host.unwritable := by
  unfold State.driveNext; split <;> rfl
@[simp] theorem State.driveNext_diags (s : State) : s.driveNext.host.diags = s.host.diags := by
  unfold State.driveNext; split <;> rfl
@[simp] theorem State.driveNext_exitCode (s : State) : s.driveNext.host.exitCode = s.host.exitCode := by
  unfold State.driveNext; split <;> rfl

/-- The port levels driven are those of the host's next move. -/
theorem driveNext_drives {s : State} {p : Ports} {rest : List HostMove} (h : s.host.script = .drive p :: rest) :
    s.driveNext.ports = p ∧ s.driveNext.host.script = rest := by
  unfold State.driveNext
  rw [h]
  exact ⟨rfl, rfl⟩

/-- Driving no port levels leaves the state. -/
theorem driveNext_none (s : State) (hd : ∀ p rest, s.host.script ≠ .drive p :: rest) : s.driveNext = s := by
  unfold State.driveNext
  split
  · exact absurd ‹_› (hd _ _)
  · rfl

/-- While the block is busy and `start` is low, a sequence that waits leaves the turn to the host's other moves. -/
theorem hostTurn_waits (s : State) (hp : s.host.phase ≠ .idle) (hs : s.ports.start = false) (b : s.busy = true) :
    hostTurn s = whileWaiting s := by
  have hd : s.done = false := by
    cases h : s.fsm <;> simp_all [State.done, State.busy, Fsm.busy]
  unfold hostTurn
  cases h : s.host.phase with
  | idle => exact absurd h hp
  | compress q n => simp [hs, hd]
  | decompress q n => simp [hs, hd]

/-- A sequence lowers `start` after the step that accepts its command (R238). -/
theorem hostTurn_lowers (s : State) (hp : s.host.phase ≠ .idle) (hs : s.ports.start = true) :
    hostTurn s = whileWaiting s.lowerStart := by
  unfold hostTurn
  cases h : s.host.phase with
  | idle => exact absurd h hp
  | compress q n => simp [hs]
  | decompress q n => simp [hs]

/-- One step of the host's run. -/
theorem core_run_succ (k : Nat) (s : State) :
    core.run (k + 1) s =
      (match step s with
        | .next t => core.run k t
        | .fault r => .fault r
        | .refused r => .refused r) :=
  (Host.Core.run.eq_2 core s k).trans (by cases h : step s <;> simp [core, h])

end Sys2Proof.Machine
end

