-- ==== Sys2Proof/Laws/Operands.lean ====
section
/-! SUPPORT. The operands and the branch conditions over the naturals (00_scope.md R12): where the guard of R27 or R121
holds, the 64-bit arithmetic is that of the naturals. -/

namespace Sys2Proof.Machine

@[simp] theorem zextW_toNat (v : Byte) : (zextW v).toNat = v.toNat := by
  simp only [zextW, BitVec.toNat_setWidth]
  omega

theorem word_add_toNat (a b : Word) (h : a.toNat + b.toNat < 2 ^ 64) : (a + b).toNat = a.toNat + b.toNat := by
  rw [BitVec.toNat_add, Nat.mod_eq_of_lt h]

theorem word_sub_toNat (a b : Word) (h : b.toNat ≤ a.toNat) : (a - b).toNat = a.toNat - b.toNat :=
  BitVec.toNat_sub_of_le (BitVec.le_def.2 h)

theorem runEnd_toNat (s : State) (h : s.rpos.toNat + s.runCnt.toNat ≤ s.len.toNat) :
    s.runEnd.toNat = s.rpos.toNat + s.runCnt.toNat := by
  have := s.len.isLt
  rw [State.runEnd, word_add_toNat _ _ (by rw [zextW_toNat]; omega), zextW_toNat]

theorem inputEnded_iff (s : State) : s.inputEnded = true ↔ s.rpos.toNat = s.len.toNat := by
  simp only [State.inputEnded, beq_iff_eq, BitVec.toNat_inj]

theorem runGoesOn_iff (s : State) (h : s.rpos.toNat + s.runCnt.toNat ≤ s.len.toNat) :
    s.runGoesOn = true ↔
      s.runCnt.toNat < 255 ∧ s.rpos.toNat + s.runCnt.toNat < s.len.toNat ∧
        s.inp.read .inp (s.rpos.toNat + s.runCnt.toNat) = s.runVal := by
  simp only [State.runGoesOn, State.runNextByte, State.readIn, Bool.and_eq_true, decide_eq_true_eq, beq_iff_eq,
    BitVec.lt_def, runEnd_toNat s h, and_assoc]
  rfl

theorem noRoomForPair_iff (s : State) (h : s.wpos.toNat ≤ s.cap.toNat) :
    s.noRoomForPair = true ↔ s.cap.toNat - s.wpos.toNat < 2 := by
  simp only [State.noRoomForPair, State.room, decide_eq_true_eq, BitVec.lt_def, word_sub_toNat _ _ h]
  rfl

theorem noPairLeft_iff (s : State) (h : s.rpos.toNat ≤ s.len.toNat) :
    s.noPairLeft = true ↔ s.len.toNat - s.rpos.toNat < 2 := by
  simp only [State.noPairLeft, State.inputLeft, decide_eq_true_eq, BitVec.lt_def, word_sub_toNat _ _ h]
  rfl

theorem noRoomForRun_iff (s : State) (h : s.wpos.toNat ≤ s.cap.toNat) :
    s.noRoomForRun = true ↔ s.pairCnt.toNat > s.cap.toNat - s.wpos.toNat := by
  simp only [State.noRoomForRun, State.room, decide_eq_true_eq, GT.gt, BitVec.lt_def, word_sub_toNat _ _ h,
    zextW_toNat]

theorem countAddr_toNat (s : State) (h : s.wpos.toNat + 2 ≤ s.cap.toNat) : s.countAddr.toNat = s.wpos.toNat + 1 := by
  have := s.cap.isLt
  exact word_add_toNat _ 1 (by simp; omega)

theorem word_add_ofNat (a : Word) (k : Nat) : a + BitVec.ofNat 64 k = BitVec.ofNat 64 (a.toNat + k) := by
  apply BitVec.eq_of_toNat_eq
  simp

end Sys2Proof.Machine
end

