-- ==== Sys2Proof/Laws/PerInstr.lean ====
section
/-! SUPPORT. A fact about every operation as syntax, one lemma per constructor (30_encoding.md R75, R77, R82). -/

/-- The encoding of an operation, where it has one, has the length of its format. -/
def Sys2Proof.Laws.EncodedLength.Statement (i : Sys2Proof.Instr) : Prop :=
  ∀ ws, Sys2Proof.encode i = some ws → ws.length = i.format.bytes

namespace Sys2Proof.Laws.EncodedLength

theorem encode (inLen outCap : Word) : Statement (.encode inLen outCap) := by
  intro ws h
  cases h
  rfl

theorem decode (inLen outCap : Word) : Statement (.decode inLen outCap) := by
  intro ws h
  cases h
  rfl

theorem idleWait : Statement .idleWait := by
  intro ws h
  cases h
  rfl

theorem encFetch : Statement .encFetch := by
  intro ws h
  cases h
  rfl

theorem encCount : Statement .encCount := by
  intro ws h
  cases h
  rfl

theorem encEmitV : Statement .encEmitV := by
  intro ws h
  cases h
  rfl

theorem encEmitC : Statement .encEmitC := by
  intro ws h
  cases h
  rfl

theorem decReadV : Statement .decReadV := by
  intro ws h
  cases h
  rfl

theorem decReadC : Statement .decReadC := by
  intro ws h
  cases h
  rfl

theorem decCheck : Statement .decCheck := by
  intro ws h
  cases h
  rfl

theorem decExpand : Statement .decExpand := by
  intro ws h
  cases h
  rfl

theorem doneHold : Statement .doneHold := by
  intro ws h
  cases h
  rfl

theorem compress (inPath outPath : Path) : Statement (.compress inPath outPath) := by
  intro ws h
  cases h

theorem decompress (inPath outPath : Path) : Statement (.decompress inPath outPath) := by
  intro ws h
  cases h

end Sys2Proof.Laws.EncodedLength
end

