-- ==== Sys2Proof/Laws/Run.lean ====
section
/-! SUPPORT. Runs of the block: how they compose, and the two loops of the sequencer in one lemma each, the counting of a
run (41_encoder.md R113) and the expansion of a Pair (42_decoder.md R145). -/

namespace Sys2Proof.Machine

theorem blockRun_add {j : Nat} {s u : State} (h : blockRun j s = .next u) (k : Nat) :
    blockRun (j + k) s = blockRun k u := by
  induction j generalizing s with
  | zero => cases h; simp
  | succ j ih =>
    rw [show j + 1 + k = (j + k) + 1 by omega]
    simp only [blockRun] at h ⊢
    cases hb : blockStep s with
    | next t => rw [hb] at h; exact ih h
    | fault r => rw [hb] at h; cases h
    | refused r => rw [hb] at h; cases h

/-- The end of an operation is reached after one number of steps and in one state only. -/
theorem State.endsIn_unique {s t t' : State} {k k' : Nat} (h : s.endsIn k t) (h' : s.endsIn k' t') :
    k = k' ∧ t = t' := by
  obtain ⟨h1, h2, h3⟩ := h
  obtain ⟨h1', h2', h3'⟩ := h'
  have e : k = k' := by
    by_contra hne
    rcases Nat.lt_or_gt_of_ne hne with hl | hl
    · exact h3' k t hl h1 h2
    · exact h3 k' t' hl h1' h2'
  subst e
  rw [h1] at h1'
  cases h1'
  exact ⟨rfl, rfl⟩

/-- `k` steps lead from `s` to `t` through states that are not `DONE`. -/
def State.runsTo (s : State) (k : Nat) (t : State) : Prop :=
  blockRun k s = .next t ∧ ∀ j u, j < k → blockRun j s = .next u → u.fsm ≠ .done

theorem State.runsTo_refl (s : State) : s.runsTo 0 s := ⟨rfl, by intro j u h; omega⟩

theorem BlockMove.runsTo {s t u : State} {k : Nat} (h : BlockMove s t) (hn : s.fsm ≠ .done) (h2 : t.runsTo k u) :
    s.runsTo (k + 1) u := by
  have e : blockStep s = .next t := (blockStep_iff _ _).2 h
  refine ⟨by simp only [blockRun, e]; exact h2.1, ?_⟩
  intro j v hj hv
  cases j with
  | zero => cases hv; exact hn
  | succ j => simp only [blockRun, e] at hv; exact h2.2 j v (by omega) hv

theorem State.runsTo_trans {s t u : State} {j k : Nat} (h : s.runsTo j t) (h2 : t.runsTo k u) :
    s.runsTo (j + k) u := by
  refine ⟨by rw [blockRun_add h.1]; exact h2.1, ?_⟩
  intro i v hi hv
  by_cases hij : i < j
  · exact h.2 i v hij hv
  · obtain ⟨d, rfl⟩ : ∃ d, i = j + d := ⟨i - j, by omega⟩
    rw [blockRun_add h.1] at hv
    exact h2.2 d v (by omega) hv

/-- The accepting step (R91, R92). -/
theorem blockStep_accept (s : State) (b : s.busy = false) (r : s.ports.rst = false) (w : s.ports.start = true) :
    blockStep s = .next (s.accept s.ports.op s.ports.inLen s.ports.outCap) :=
  (blockStep_iff _ _).2 (.accept r ((State.busy_eq_false_iff s).1 b) w)

/-- Expanding a Pair with `e` copies left takes `e + 1` steps and leaves `DEC_READ_V` with the copies written. -/
theorem expand_runsTo (e : Nat) (s : State) (r : s.ports.rst = false) (f : s.fsm = .decExpand)
    (he : s.expRem.toNat = e) (hw : s.wpos.toNat + e < 2 ^ 64) :
    s.runsTo (e + 1)
      { s with
        out := s.out.writeBytes s.wpos.toNat (List.replicate e s.pairVal)
        wpos := BitVec.ofNat 64 (s.wpos.toNat + e), expRem := 0, fsm := .decReadV } := by
  induction e generalizing s with
  | zero =>
    have hz : s.expRem = 0 := BitVec.eq_of_toNat_eq he
    have hm := BlockMove.runDone r f hz
    have e : s.goto .decReadV =
        { s with
          out := s.out.writeBytes s.wpos.toNat (List.replicate 0 s.pairVal)
          wpos := BitVec.ofNat 64 (s.wpos.toNat + 0), expRem := 0, fsm := .decReadV } := by
      simp [State.goto, Memory.writeBytes, hz]
    rw [e] at hm
    exact hm.runsTo (by rw [f]; decide) (State.runsTo_refl _)
  | succ e ih =>
    have hz : s.expRem ≠ 0 := by intro h; rw [h] at he; simp at he
    have e1 : (s.expRem - 1).toNat = e := by
      rw [BitVec.toNat_sub_of_le]
      · rw [he]; simp
      · rw [BitVec.le_def, he]; simp
    have e2 : (s.wpos + 1).toNat = s.wpos.toNat + 1 := word_add_toNat _ 1 (by simp; omega)
    have h := ih { s.writeOut s.valueAddr s.pairVal with wpos := s.wpos + 1, expRem := s.expRem - 1 } r f e1 (by
      show (s.wpos + 1).toNat + e < 2 ^ 64
      omega)
    have h2 := (BlockMove.copy r f hz).runsTo (by rw [f]; decide) h
    simp only [e2] at h2
    rw [show s.wpos.toNat + 1 + e = s.wpos.toNat + (e + 1) by omega] at h2
    exact h2

/-- A move of the encoder's count: the step that goes on, or the one that closes the run. -/
theorem count_move (s : State) (r : s.ports.rst = false) (f : s.fsm = .encCount)
    (h : s.rpos.toNat + s.runCnt.toNat ≤ s.len.toNat) :
    BlockMove s
      (if s.runCnt.toNat < 255 ∧ s.rpos.toNat + s.runCnt.toNat < s.len.toNat ∧
          s.inp.read .inp (s.rpos.toNat + s.runCnt.toNat) = s.runVal then { s with runCnt := s.runCnt + 1 }
      else s.goto .encEmitV) := by
  split
  · exact .count r f ((runGoesOn_iff s h).2 ‹_›)
  · exact .closeRun r f (by rw [← Bool.not_eq_true, runGoesOn_iff s h]; assumption)

end Sys2Proof.Machine
end

