-- ==== Sys2Proof/Laws/Transform.lean ====
section
/-! SUPPORT. The transforms (41_encoder.md R110, 42_decoder.md R140): what the counting of a run gives, and the encoder's
loop in closed form. -/

namespace Sys2Proof.Machine

theorem matchingPrefix_le (b : Byte) (k : Nat) (l : List Byte) :
    matchingPrefix b k l ≤ k ∧ matchingPrefix b k l ≤ l.length := by
  induction k generalizing l with
  | zero => cases l <;> simp [matchingPrefix]
  | succ k ih =>
    cases l with
    | nil => simp [matchingPrefix]
    | cons x xs =>
      simp only [matchingPrefix]
      split
      · have := ih xs
        simp
        omega
      · simp

/-- The counted bytes are copies of `b`, and the rest follows them. -/
theorem matchingPrefix_split (b : Byte) (k : Nat) (l : List Byte) :
    l = List.replicate (matchingPrefix b k l) b ++ l.drop (matchingPrefix b k l) := by
  induction k generalizing l with
  | zero => simp [matchingPrefix]
  | succ k ih =>
    cases l with
    | nil => simp [matchingPrefix]
    | cons x xs =>
      simp only [matchingPrefix]
      split
      · rename_i h
        subst h
        simp only [List.replicate_succ, List.drop_succ_cons, List.cons_append]
        rw [← ih xs]
      · simp

/-- Of `n` copies of `b` all are counted, if the limit is `n`, or is above it and no further `b` follows. -/
theorem matchingPrefix_replicate (b : Byte) (k n : Nat) (l : List Byte)
    (h : n = k ∨ (n < k ∧ l.head? ≠ some b)) : matchingPrefix b k (List.replicate n b ++ l) = n := by
  induction k generalizing n with
  | zero => simp [matchingPrefix]; omega
  | succ k ih =>
    cases n with
    | zero =>
      cases l with
      | nil => simp [matchingPrefix]
      | cons x xs =>
        simp at h
        simp [matchingPrefix, h]
    | succ n =>
      simp only [List.replicate_succ, List.cons_append, matchingPrefix, if_true]
      rw [ih n (h.imp (fun h => by omega) (fun h => ⟨by omega, h.2⟩))]

/-- The Pairs of an input, one pass of R110 after another; the number bounds the passes. -/
def greedyPairs : Nat → List Byte → List Byte
  | 0, _ => []
  | _ + 1, [] => []
  | n + 1, b :: rest =>
    b :: BitVec.ofNat 8 (matchingPrefix b 254 rest + 1) :: greedyPairs n (rest.drop (matchingPrefix b 254 rest))

/-- Any bound that is at least the length gives the same Pairs. -/
theorem greedyPairs_bound (n m : Nat) (raw : List Byte) (h : raw.length ≤ n) (h' : raw.length ≤ m) :
    greedyPairs n raw = greedyPairs m raw := by
  induction n generalizing m raw with
  | zero =>
    cases raw with
    | nil => cases m <;> rfl
    | cons => simp at h
  | succ n ih =>
    cases raw with
    | nil => cases m <;> rfl
    | cons b rest =>
      cases m with
      | zero => simp at h'
      | succ m =>
        simp only [greedyPairs]
        simp at h h'
        rw [ih m]
        · simp; omega
        · simp; omega

theorem greedyPairs_length (n : Nat) (raw : List Byte) (h : raw.length ≤ n) :
    (greedyPairs n raw).length % 2 = 0 ∧ (greedyPairs n raw).length ≤ 2 * raw.length := by
  induction n generalizing raw with
  | zero => simp [greedyPairs]
  | succ n ih =>
    cases raw with
    | nil => simp [greedyPairs]
    | cons b rest =>
      simp at h
      have := ih (rest.drop (matchingPrefix b 254 rest)) (by simp; omega)
      simp only [greedyPairs, List.length_cons] at this ⊢
      simp at this
      omega

/-- The loop of R110 writes the Pairs that have room, and stops for want of room exactly if one is left. -/
theorem encLoop_eq (cap n : Nat) (raw out : List Byte) (h : raw.length ≤ n) (ho : out.length ≤ cap) :
    encLoop cap n raw out =
      (out ++ (greedyPairs n raw).take (2 * min ((greedyPairs n raw).length / 2) ((cap - out.length) / 2)),
        if (cap - out.length) / 2 < (greedyPairs n raw).length / 2 then .capacityExceeded else .ok) := by
  induction n generalizing raw out with
  | zero =>
    cases raw with
    | nil => simp [encLoop, greedyPairs]
    | cons => simp at h
  | succ n ih =>
    cases raw with
    | nil => simp [encLoop, greedyPairs]
    | cons b rest =>
      have e : greedyPairs (n + 1) (b :: rest) =
          b :: BitVec.ofNat 8 (matchingPrefix b 254 rest + 1) :: greedyPairs n (rest.drop (matchingPrefix b 254 rest)) := rfl
      have e' : (greedyPairs (n + 1) (b :: rest)).length / 2 =
          (greedyPairs n (rest.drop (matchingPrefix b 254 rest))).length / 2 + 1 := by
        rw [e]
        simp only [List.length_cons]
        omega
      simp only [encLoop]
      rw [e']
      split
      · have : (cap - out.length) / 2 = 0 := by omega
        simp [this]
      · rename_i hc
        have hl : (out ++ [b, BitVec.ofNat 8 (matchingPrefix b 254 rest + 1)]).length = out.length + 2 := by simp
        have e2 : (cap - out.length) / 2 = (cap - (out.length + 2)) / 2 + 1 := by omega
        rw [ih _ _ (by simp at h ⊢; omega) (by rw [hl]; omega), hl, e2, e, Nat.add_min_add_right, Nat.mul_add]
        simp

end Sys2Proof.Machine
end

