-- ==== Sys2Proof/Tests/Slice0.lean ====
section
/-! SUPPORT. Tests: ill-formed terms refused; words written out from 30_encoding.md; single steps and small inputs from
95_test_vectors.md (the row stands above each test); and, for each statement with hypotheses, a witness that meets them. -/

namespace Sys2Proof.Tests

open Sys2Proof.Machine

/-- The next state of an answer; the reset state where there is none. -/
def after (r : Result) : State :=
  match r with
  | .next t => t
  | .fault _ => State.reset
  | .refused _ => State.reset

/-- Whether an answer is a next state. -/
def completes (r : Result) : Bool :=
  match r with
  | .next _ => true
  | .fault _ => false
  | .refused _ => false

/-- A state of the block with an input, and everything else as after reset. -/
def block (fsm : Fsm) (inp : List Byte) (len cap rpos wpos : Word) : State :=
  { State.reset with fsm := fsm, inp := Memory.writeBytes [] 0 inp, len := len, cap := cap, rpos := rpos, wpos := wpos }

/-- A state with a command on the ports. -/
def commanded (fsm : Fsm) (inp : List Byte) (op : BitVec 1) (inLen outCap : Word) : State :=
  (block fsm inp 0 0 0 0).driveCommand op inLen outCap

/-- The reset state of a machine whose host has files. -/
def withFiles (files : List (Path × List Byte)) : State :=
  { State.reset with host := { HostState.quiet with files := files } }

/-! ## Well-formedness -/

theorem test_wellFormed_refuses_empty_input_path : Instr.wellFormed (.compress "" "x") = false := by decide

theorem test_wellFormed_refuses_empty_output_path : Instr.wellFormed (.decompress "x" "") = false := by decide

theorem test_wellFormed_accepts :
    Instr.wellFormed (.compress "a" "b") = true ∧ Instr.wellFormed (.encode 0 0) = true := by decide

/-! ## Decoding, from words written out by hand -/

/-- R77: the ten codes. -/
theorem test_decode_codes :
    [0x0, 0x1, 0x2, 0x3, 0x4, 0x5, 0x6, 0x7, 0x8, 0x9].map (fun w => decodeTableWord 4 w) =
      [some .idleWait, some .encFetch, some .encCount, some .encEmitV, some .encEmitC, some .decReadV,
        some .decReadC, some .decCheck, some .decExpand, some .doneHold] := by decide

/-- R78: 10 to 15 name no state. -/
theorem test_decode_reserved :
    [0xA, 0xB, 0xC, 0xD, 0xE, 0xF].map (fun w => decodeTableWord 4 w) = [none, none, none, none, none, none] := by
  decide

/-- R75: `op = 0` at bit 0, `in_len = 4` at bits 64..1, `out_cap = 8` at bits 128..65 (program P1). -/
theorem test_decode_encode_command :
    decode .cmd [0x08, 0, 0, 0, 0, 0, 0, 0, 0x10, 0, 0, 0, 0, 0, 0, 0, 0] = .ok (.encode 4 8, []) := by decide

/-- R75: `op = 1`, `in_len = 300`, `out_cap = 2^64 - 1`; a byte that follows is left over. -/
theorem test_decode_decode_command :
    decode .cmd [0x59, 0x02, 0, 0, 0, 0, 0, 0, 0xFE, 0xFF, 0xFF, 0xFF, 0xFF, 0xFF, 0xFF, 0xFF, 0x01, 0x77] =
      .ok (.decode 300 0xFFFFFFFFFFFFFFFF, [0x77]) := by decide

/-- R79 and log entry 10: bits outside the fields, and words cut short, are refused by name. -/
theorem test_decode_refuses :
    decode .ustep [0x10] = .error .strayBits ∧ decode .ustep [] = .error .tooShort ∧
      decode .cmd [0, 0, 0, 0, 0, 0, 0, 0, 0, 0, 0, 0, 0, 0, 0, 0, 2] = .error .strayBits ∧
      decode .cmd [0, 0, 0] = .error .tooShort ∧ decode .pseudo [0] = .error .noBits ∧
      decode .ustep [0x0A] = .error (.reservedState 0xA) := by decide

/-- A table word runs as the first operation after reset. -/
theorem test_placed_word_runs :
    decodeTableWord 1 1 = some (.decode 0 0) ∧ decodeTableWord 8 0xFE = some (.encode 127 0) ∧ (State.reset.withFetchWord 4 7).fsm = .decCheck ∧
      (after (step (State.reset.withFetchWord 1 1))).fsm = .decReadV ∧
      (after (step (State.reset.withFetchWord 4 7))).fsm = .decExpand := by decide

/-! ## Single steps -/

/-- Q2. -/
theorem test_encode_is_accepted :
    let t := after (exec (.encode 4 8) State.reset)
    (t.fsm, t.opr, t.len, t.cap, t.rpos, t.wpos, t.capExceeded) = (.encFetch, 0, 4, 8, 0, 0, false) := by decide

/-- Q6: a command given to a busy block is lost. -/
theorem test_encode_is_lost_while_busy :
    (after (exec (.encode 99 99) (block .encCount [] 4 8 0 0))).len = 4 ∧
      (after (exec (.decode 99 99) (block .encCount [] 4 8 0 0))).fsm = .encCount := by decide

/-- Q3. -/
theorem test_decode_is_accepted :
    let t := after (exec (.decode 4 4) State.reset)
    (t.fsm, t.opr, t.len, t.cap, t.rpos, t.wpos) = (.decReadV, 1, 4, 4, 0, 0) := by decide

/-- Q1, Q2. -/
theorem test_idleWait :
    exec .idleWait State.reset = .next State.reset ∧
      (after (exec .idleWait (commanded .idle [] 0 4 8))).fsm = .encFetch := by
  exact ⟨rfl, by decide⟩

/-- Q4, Q5. -/
theorem test_doneHold :
    let s := { commanded .done [] 0 3 6 with wpos := 4, capExceeded := true, runVal := 0x43, runCnt := 1 }
    let t := after (exec .doneHold s)
    exec .doneHold (s.lowerStart) = .next s.lowerStart ∧
      (t.fsm, t.len, t.cap, t.wpos, t.capExceeded, t.runVal, t.runCnt) = (.encFetch, 3, 6, 0, false, 0x43, 1) := by
  exact ⟨rfl, by decide⟩

/-- EM1. -/
theorem test_encFetch_ends :
    (after (exec .encFetch (block .encFetch [] 0 0 0 0))).fsm = .done ∧ (block .encFetch [] 0 0 0 0).inAccess = none := by
  decide

/-- EM2. -/
theorem test_encFetch_loads :
    let t := after (exec .encFetch
      { block .encFetch [0x41, 0x41, 0x41, 0x42] 4 8 3 2 with runVal := 0x41, runCnt := 3 })
    (t.fsm, t.runVal, t.runCnt) = (.encCount, 0x42, 1) := by decide

/-- EM3, EM7. -/
theorem test_encCount_goes_on :
    let t := after (exec .encCount
      { block .encCount [0x41, 0x41, 0x41, 0x42] 4 8 0 0 with runVal := 0x41, runCnt := 2 })
    let u := after (exec .encCount
      { block .encCount [] 300 600 0 0 with inp := [(254, 0x41)], runVal := 0x41, runCnt := 254 })
    (t.fsm, t.runCnt) = (.encCount, 3) ∧ (u.fsm, u.runCnt) = (.encCount, 255) := by decide

/-- EM4, EM5, EM6. -/
theorem test_encCount_closes :
    let s := { block .encCount [0x41, 0x41, 0x41, 0x42] 4 8 0 0 with runVal := 0x41, runCnt := 3 }
    let e := { block .encCount [] 4 8 3 2 with runCnt := 1 }
    let f := { block .encCount [] 300 600 0 0 with inp := [(255, 0x41)], runVal := 0x41, runCnt := 255 }
    (after (exec .encCount s)).fsm = .encEmitV ∧ (after (exec .encCount e)).fsm = .encEmitV ∧ e.inAccess = none ∧
      (after (exec .encCount f)).fsm = .encEmitV ∧ (after (exec .encCount f)).runCnt = 255 ∧ f.inAccess = none := by
  decide

/-- EM8. -/
theorem test_encEmitV_stores :
    let t := after (exec .encEmitV { block .encEmitV [] 9 8 2 2 with runVal := 0x42 })
    (t.fsm, t.wpos, t.out) = (.encEmitC, 2, [(2, 0x42)]) := by decide

/-- EM9, EM10. -/
theorem test_encEmitV_raises :
    let t := after (exec .encEmitV { block .encEmitV [] 9 5 4 4 with runVal := 0x42 })
    let u := after (exec .encEmitV { block .encEmitV [] 9 4 4 4 with runVal := 0x42 })
    (t.fsm, t.wpos, t.capExceeded, t.out) = (.done, 4, true, []) ∧ (u.fsm, u.capExceeded) = (.done, true) := by decide

/-- EM12, EM13. -/
theorem test_encEmitC :
    let t := after (exec .encEmitC { block .encEmitC [] 4 8 0 0 with runCnt := 3 })
    let u := after (exec .encEmitC { block .encEmitC [] 600 600 255 2 with runCnt := 255 })
    (t.fsm, t.wpos, t.rpos, t.out) = (.encFetch, 2, 3, [(1, 0x03)]) ∧ (u.wpos, u.rpos, u.out) = (4, 510, [(3, 0xFF)]) := by
  decide

/-- DM1, DM2. -/
theorem test_decReadV_ends :
    (after (exec .decReadV (block .decReadV [] 0 0 0 0))).fsm = .done ∧
      (after (exec .decReadV (block .decReadV [1, 2, 3, 4, 5] 5 9 4 0))).fsm = .done := by decide

/-- DM3. -/
theorem test_decReadV_reads :
    let t := after (exec .decReadV (block .decReadV [0x41, 0x03, 0x42, 0x01] 4 4 2 3))
    (t.fsm, t.pairVal, t.rpos) = (.decReadC, 0x42, 2) := by decide

/-- DM4. -/
theorem test_decReadC :
    let t := after (exec .decReadC (block .decReadC [0x41, 0x03, 0x42, 0x01] 4 4 2 3))
    (t.fsm, t.pairCnt, t.rpos) = (.decCheck, 1, 2) := by decide

/-- DM5, DM7, DM8. -/
theorem test_decCheck_consumes :
    let t := after (exec .decCheck { block .decCheck [] 4 4 0 0 with pairCnt := 3 })
    let u := after (exec .decCheck { block .decCheck [] 4 4 2 2 with pairCnt := 2 })
    let v := after (exec .decCheck (block .decCheck [] 4 0 0 0))
    (t.fsm, t.expRem, t.rpos) = (.decExpand, 3, 2) ∧ (u.fsm, u.expRem, u.rpos) = (.decExpand, 2, 4) ∧
      (v.fsm, v.expRem, v.rpos) = (.decExpand, 0, 2) := by decide

/-- DM6. -/
theorem test_decCheck_raises :
    let t := after (exec .decCheck { block .decCheck [] 4 4 2 2 with pairCnt := 3 })
    (t.fsm, t.capExceeded, t.rpos, t.wpos) = (.done, true, 2, 2) := by decide

/-- DM9. -/
theorem test_decExpand_copies :
    let t := after (exec .decExpand { block .decExpand [] 4 4 2 1 with expRem := 2, pairVal := 0x41 })
    (t.fsm, t.out, t.wpos, t.expRem) = (.decExpand, [(1, 0x41)], 2, 1) := by decide

/-- DM10. -/
theorem test_decExpand_leaves :
    let t := after (exec .decExpand (block .decExpand [] 4 4 2 3))
    (t.fsm, t.out, t.wpos) = (.decReadV, [], 3) := by decide

/-- Q7, Q8: reset wins over the selected micro-operation, and stores nothing. -/
theorem test_reset_step :
    let s := { block .encEmitC [0x41] 4 8 1 0 with out := [(0, 0x41)], ports := { Ports.quiet with rst := true } }
    let u := { block .encEmitV [] 9 4 4 4 with ports := { Ports.quiet with rst := true } }
    (after (blockStep s)).out = [(0, 0x41)] ∧ (after (blockStep s)).fsm = .idle ∧
      (after (blockStep u)).capExceeded = false := by decide

/-- H1, the command. -/
theorem test_compress :
    let t := after (exec (.compress "a" "b") (withFiles [("a", [0x41, 0x41, 0x41, 0x42])]))
    (t.ports.start, t.ports.op, t.ports.inLen, t.ports.outCap, t.inp.bytes .inp 4) =
      (true, 0, 4, 8, [0x41, 0x41, 0x41, 0x42]) := by decide

/-- H1, the container. -/
theorem test_compress_finishes :
    let s := { withFiles [] with fsm := .done, wpos := 4, out := Memory.writeBytes [] 0 [0x41, 0x03, 0x42, 0x01] }
    findFile (after (hostTurn (s.await (.compress "b" 4)))).host.files "b" =
      some [0x04, 0, 0, 0, 0, 0, 0, 0, 0x41, 0x03, 0x42, 0x01] := by decide

/-- H2, the command; H7, the abort. -/
theorem test_decompress :
    let t := after (exec (.decompress "c" "d")
      (withFiles [("c", [0x04, 0, 0, 0, 0, 0, 0, 0, 0x41, 0x03, 0x42, 0x01])]))
    let u := after (exec (.decompress "c" "d") (withFiles [("c", [1, 2, 3])]))
    (t.ports.op, t.ports.inLen, t.ports.outCap) = (1, 4, 4) ∧
      (u.host.diags, u.ports.start) = ([.malformedContainer], false) := by decide

/-- H11: the capacity diagnostic, no size diagnostic, and the output written. -/
theorem test_decompress_finishes :
    let s := { withFiles [] with
      fsm := .done, wpos := 3, capExceeded := true, out := Memory.writeBytes [] 0 [0x41, 0x41, 0x41] }
    let t := after (hostTurn (s.await (.decompress "d" 3)))
    t.host.diags = [.capacityExceeded] ∧ findFile t.host.files "d" = some [0x41, 0x41, 0x41] := by decide

/-- R182 (c): the host raises `rst` in the step that would accept the command of its own sequence, in the step after the
accepting one, and in the step after the result is written. -/
theorem test_reset_beside_a_sequence :
    let p : Ports := { Ports.quiet with rst := true }
    let f := withFiles [("a", [0x41])]
    let b : State := { f with host := { f.host with script := [.compress "a" "b", .drive p] } }
    let w := (commanded .encFetch [0x41] 0 1 2).await (.compress "b" 1)
    let a : State := { w with host := { w.host with script := [.drive p] } }
    let e := (block .done [] 0 0 0 0).await (.compress "b" 0)
    let d : State := { e with host := { e.host with script := [.drive p] } }
    ((after (hostTurn b)).ports.rst, (after (hostTurn b)).host.phase) = (true, .compress "b" 1) ∧
      (after (hostTurn a)).ports.rst = true ∧ (after (blockStep (after (hostTurn a)))).fsm = .idle ∧
      ((after (hostTurn d)).ports.rst, (after (hostTurn d)).host.phase) = (true, .idle) := by decide

/-! ## The transforms -/

/-- E1, E3, E4, E8, E9, E10. -/
theorem test_enc :
    enc [] 0 = ([], .ok) ∧ enc [0x41] 2 = ([0x41, 1], .ok) ∧ enc [0x41] 1 = ([], .capacityExceeded) ∧
      enc [0x41, 0x42] 3 = ([0x41, 1], .capacityExceeded) ∧
      enc [0, 0, 0xFF, 0xFF, 0xFF, 0] 6 = ([0, 2, 0xFF, 3, 0, 1], .ok) ∧
      enc [0, 0, 0xFF, 0xFF, 0xFF, 0] 5 = ([0, 2, 0xFF, 3], .capacityExceeded) := by decide

/-- D2, D4, D5, D7, D9, D15, D17. -/
theorem test_dec :
    dec [0x41] 5 = ([], .ok) ∧ dec [0x41, 1] 0 = ([], .capacityExceeded) ∧ dec [0x41, 0] 0 = ([], .ok) ∧
      dec [0x41, 3, 0x42, 1] 3 = ([0x41, 0x41, 0x41], .capacityExceeded) ∧
      dec [0x41, 3, 0x42, 1, 0x43] 4 = ([0x41, 0x41, 0x41, 0x42], .ok) ∧
      dec [1, 2, 3, 4, 5, 6] 5 = ([1, 1], .capacityExceeded) ∧
      dec [0xAA, 2, 0xBB, 0, 0xCC, 1] 3 = ([0xAA, 0xAA, 0xCC], .ok) := by decide

/-- H6: the header of 100000, in both orders. -/
theorem test_header :
    headerBytes .little 100000 = [0xA0, 0x86, 0x01, 0, 0, 0, 0, 0] ∧
      headerBytes .big 100000 = [0, 0, 0, 0, 0, 0x01, 0x86, 0xA0] := by decide

/-! ## Witnesses: each meets all hypotheses of the statement it is named after, one per clause, at the ends of its range -/

/-- Reset levels on the ports. -/
def resetPorts : Ports := { Ports.quiet with rst := true }

theorem witness_ResetStepClearsEveryRegister :
    ({ block .encEmitC [1] 4 8 1 0 with ports := resetPorts } : State).ports.rst = true ∧ Ports.quiet.rst = false := by
  decide

theorem witness_StepRunsTheSelectedMicroOperation :
    (State.reset.ports.rst = false ∧ decode .ustep [State.reset.fsm.code.setWidth 8] = .ok (.idleWait, [])) ∧
      ((block .done [] 0 0 0 0).ports.rst = false ∧
        decode .ustep [(block .done [] 0 0 0 0).fsm.code.setWidth 8] = .ok (.doneHold, [])) ∧
      ({ State.reset with ports := resetPorts } : State).ports.rst = true := by decide

theorem witness_CodesSelectTheMicroOperations :
    10 ≤ (0xA : BitVec 4).toNat ∧ 10 ≤ (0xF : BitVec 4).toNat ∧
      (block .decCheck [1] 4 4 2 2).fsm = (block .decCheck [] 0 0 0 0).fsm := by decide

theorem witness_DecodeOfEncodeIsTheOperation :
    (Instr.wellFormed (.encode 0 0xFFFFFFFFFFFFFFFF) = true ∧ Instr.format (.encode 0 0xFFFFFFFFFFFFFFFF) ≠ .pseudo) ∧
      (Instr.wellFormed .doneHold = true ∧ Instr.format .doneHold ≠ .pseudo) ∧
      (Instr.wellFormed (.compress "a" "b") = true ∧ Instr.format (.compress "a" "b") = .pseudo) := by decide

theorem witness_DecodedBytesAreTheEncoding :
    decode .ustep [0, 5] = .ok (.idleWait, [5]) ∧ decode .ustep [9] = .ok (.doneHold, []) ∧
      decode .cmd [1, 0, 0, 0, 0, 0, 0, 0, 0, 0, 0, 0, 0, 0, 0, 0, 0, 7] = .ok (.decode 0 0, [7]) := by decide

theorem witness_EveryBlockStepHasANextState :
    ({ State.reset with ports := resetPorts } : State).ports.rst = true ∧ State.reset.ports.rst = false := by decide

theorem witness_IdleWaitResult : (commanded .idle [] 1 4 4).ports.start = true ∧ State.reset.ports.start = false := by
  decide

theorem witness_DoneHoldResult :
    let s : State := { block .done [] 0 0 0 0 with ports := resetPorts }
    ((commanded .done [] 1 4 4).ports.start = true ∧ (block .done [] 0 0 0 0).ports.start = false) ∧
      s.fsm = .done ∧ blockStep s = .next s.resetRegs ∧ s.resetRegs.fsm = .idle := by
  exact ⟨by decide, rfl, rfl, rfl⟩

theorem witness_CommandsAreAccepted :
    (State.reset.busy = false ∧ (block .done [] 0 0 0 0).busy = false) ∧
      ((commanded .idle [] 0 4 8).busy = false ∧ (commanded .idle [] 0 4 8).ports.start = true) ∧
      ((commanded .done [] 1 4 4).busy = false ∧ (commanded .done [] 1 4 4).ports.start = true) := by decide

/-- Q6, and the same for a state of the decoder. -/
theorem witness_BusyBlockIgnoresTheCommandPorts :
    let s := commanded .encFetch [1] 1 99 99
    let d := block .decExpand [1] 4 4 2 0
    (s.busy = true ∧ s.ports.rst = false ∧ Ports.quiet.rst = false ∧ blockStep s = .next (after (blockStep s)) ∧
        s.fsm ∈ [Fsm.encFetch, .encCount, .encEmitV, .encEmitC]) ∧
      (d.busy = true ∧ d.ports.rst = false ∧ blockStep d = .next (after (blockStep d)) ∧
        d.fsm ∈ [Fsm.decReadV, .decReadC, .decCheck, .decExpand]) := by
  exact ⟨⟨rfl, rfl, rfl, rfl, by decide⟩, rfl, rfl, rfl, by decide⟩

/-- An input of `n` bytes `41`. -/
@[irreducible] def repeated (n : Nat) : Memory := Memory.writeBytes [] 0 (List.replicate n 0x41)

theorem repeated_wf (n : Nat) (h : n < 2 ^ 64) : (repeated n).wf = true := by
  rw [repeated]
  exact Memory.writeBytes_wf _ _ _ (by rw [List.length_replicate]; omega) rfl

theorem repeated_read (n i : Nat) (h : n < 2 ^ 64) (hi : i < n) : (repeated n).read .inp i = 0x41 := by
  rw [repeated, Memory.read_writeBytes _ _ _ _ (by rw [List.length_replicate]; omega) rfl, if_pos (Nat.zero_le i),
    Nat.sub_zero, List.getD_eq_getElem _ _ (by rw [List.length_replicate]; exact hi), List.getElem_replicate]

/-- A run of 255 bytes counted to the end: the state before `ENC_COUNT` closes a full run. -/
def fullRun : State := { block .encCount [] 256 512 0 0 with inp := repeated 256, runVal := 0x41, runCnt := 255 }

theorem fullRun_inp : fullRun.inp = repeated 256 := rfl

theorem fullRun_runVal : fullRun.runVal = 0x41 := rfl

theorem fullRun_run (j : Nat) (h : j < fullRun.runCnt.toNat) :
    fullRun.inp.read .inp (fullRun.rpos.toNat + j) = fullRun.runVal := by
  have hj : j < 255 := h
  have hr : fullRun.rpos.toNat = 0 := rfl
  rw [fullRun_inp, fullRun_runVal, hr]
  exact repeated_read 256 (0 + j) (by decide) (by omega)

theorem fullRun_inv : fullRun.Inv := by
  have wf : fullRun.inp.wf = true := by rw [fullRun_inp]; exact repeated_wf 256 (by decide)
  exact ⟨by decide, by decide, by decide, wf, rfl, ⟨rfl, rfl⟩, by decide, by decide, fullRun_run⟩

/-- The last copy of a Pair `(07, 01)` that fills the capacity. -/
def lastCopy : State :=
  { block .decExpand [0x07, 0x01] 2 1 2 0 with opr := 1, pairVal := 0x07, pairCnt := 1, expRem := 1 }

theorem lastCopy_inv : lastCopy.Inv :=
  ⟨by decide, by decide, by decide, rfl, rfl, ⟨rfl, rfl⟩, by decide, by decide, by decide, rfl, rfl⟩

/-- `ENC_EMIT_V` with no room. -/
def noRoom : State := { block .encEmitV [0x41] 1 1 0 0 with runVal := 0x41, runCnt := 1 }

theorem noRoom_inv : noRoom.Inv :=
  ⟨by decide, by decide, by decide, rfl, rfl, ⟨rfl, rfl⟩, by decide, by decide, by decide⟩

/-- `DEC_CHECK` with a run of 3 and room for 2. -/
def tooLong : State :=
  { block .decCheck [0x41, 0x01, 0x42, 0x03] 4 3 2 1 with opr := 1, pairVal := 0x42, pairCnt := 3 }

theorem tooLong_inv : tooLong.Inv :=
  ⟨by decide, by decide, by decide, rfl, rfl, ⟨rfl, rfl⟩, ⟨by decide, rfl⟩, rfl⟩

theorem idle_inv (p : Ports) : ({ State.reset with ports := p } : State).Inv :=
  ⟨Nat.le_refl _, Nat.le_refl _, (fun h => by cases h), rfl, rfl, trivial⟩

theorem witness_TransitionsAreTheTable :
    (fullRun.Inv ∧ blockStep fullRun = .next (after (blockStep fullRun)) ∧ fullRun.ports.rst = false) ∧
      (lastCopy.Inv ∧ blockStep lastCopy = .next (after (blockStep lastCopy)) ∧ lastCopy.ports.rst = false) ∧
      (noRoom.Inv ∧ blockStep noRoom = .next noRoom.raiseCapacityExceeded ∧ noRoom.ports.rst = false ∧
        noRoom.fsm = .encEmitV ∧ noRoom.raiseCapacityExceeded.fsm = .done) ∧
      (tooLong.Inv ∧ blockStep tooLong = .next tooLong.raiseCapacityExceeded ∧ tooLong.ports.rst = false ∧
        tooLong.fsm = .decCheck ∧ tooLong.raiseCapacityExceeded.fsm = .done) ∧
      (({ State.reset with ports := resetPorts } : State).Inv ∧
        blockStep { State.reset with ports := resetPorts } = .next { State.reset with ports := resetPorts } ∧
        resetPorts.rst = true) :=
  ⟨⟨fullRun_inv, rfl, rfl⟩, ⟨lastCopy_inv, rfl, rfl⟩, ⟨noRoom_inv, rfl, rfl, rfl, rfl⟩, ⟨tooLong_inv, rfl, rfl, rfl, rfl⟩,
    idle_inv _, rfl, rfl⟩

theorem witness_OutputsFollowTheState : State.reset.fsm = .idle := by decide

theorem witness_WaitingBlockHoldsItsResult :
    let d : State := { block .done [] 4 4 4 4 with capExceeded := true }
    (State.reset.busy = false ∧ State.reset.ports.start = false ∧ State.reset.ports.rst = false) ∧
      d.busy = false ∧ d.ports.start = false ∧ d.ports.rst = false := by decide

/-- The next byte continues the run; the run ends at the end of the input; the count is full. -/
theorem witness_EncCountResult :
    let s : State := { block .encCount [] 300 600 0 0 with inp := [(254, 0x41)], runVal := 0x41, runCnt := 254 }
    let e : State := { block .encCount [] 4 8 3 2 with runCnt := 1 }
    s.rpos.toNat + s.runCnt.toNat ≤ s.len.toNat ∧ e.rpos.toNat + e.runCnt.toNat ≤ e.len.toNat ∧
      fullRun.rpos.toNat + fullRun.runCnt.toNat ≤ fullRun.len.toNat := by decide

/-- Exactly two bytes of room, one, and none. -/
theorem witness_EncEmitVResult :
    (block .encEmitV [] 9 6 4 4).wpos.toNat ≤ (block .encEmitV [] 9 6 4 4).cap.toNat ∧
      (block .encEmitV [] 9 5 4 4).wpos.toNat ≤ (block .encEmitV [] 9 5 4 4).cap.toNat ∧
      (block .encEmitV [] 9 4 4 4).wpos.toNat ≤ (block .encEmitV [] 9 4 4 4).cap.toNat := by decide

theorem witness_EncEmitCResult :
    let s : State := { block .encEmitC [] 3 2 0 0 with runCnt := 3 }
    s.wpos.toNat + 2 ≤ s.cap.toNat ∧ s.rpos.toNat + s.runCnt.toNat ≤ s.len.toNat := by decide

/-- Two bytes left, and one. -/
theorem witness_DecReadVResult :
    (block .decReadV [] 4 4 2 2).rpos.toNat ≤ (block .decReadV [] 4 4 2 2).len.toNat ∧
      (block .decReadV [] 5 4 4 2).rpos.toNat ≤ (block .decReadV [] 5 4 4 2).len.toNat := by decide

theorem witness_DecReadCResult :
    (block .decReadC [] 4 4 2 2).rpos.toNat + 2 ≤ (block .decReadC [] 4 4 2 2).len.toNat := by decide

/-- A run that fits exactly, and one that is too long by one. -/
theorem witness_DecCheckResult :
    let s : State := { block .decCheck [] 4 4 2 2 with pairCnt := 2 }
    (s.wpos.toNat ≤ s.cap.toNat ∧ s.rpos.toNat + 2 ≤ s.len.toNat) ∧
      tooLong.wpos.toNat ≤ tooLong.cap.toNat ∧ tooLong.rpos.toNat + 2 ≤ tooLong.len.toNat := by decide

/-- No copy left, and one that fills the capacity. -/
theorem witness_DecExpandResult :
    (block .decExpand [] 4 4 2 4).wpos.toNat + (block .decExpand [] 4 4 2 4).expRem.toNat ≤
        (block .decExpand [] 4 4 2 4).cap.toNat ∧
      lastCopy.wpos.toNat + lastCopy.expRem.toNat ≤ lastCopy.cap.toNat := by decide

theorem witness_CommandsFrame :
    let s := commanded .done [1] 0 3 6
    (∀ i ∈ ([.encode 3 6, .decode 3 6, .idleWait, .doneHold] : List Instr),
      i ∈ ([.encode 3 6, .decode 3 6, .idleWait, .doneHold] : List Instr) ∧ completes (exec i s) = true) ∧
      exec (.encode 3 6) s = .next (after (exec (.encode 3 6) s)) := by
  exact ⟨by decide, rfl⟩

theorem witness_ReadingMicroOperationsFrame :
    let s := block .encFetch [1, 2, 3, 4] 4 8 0 0
    (∀ i ∈ ([.encFetch, .encCount, .decReadV, .decReadC, .decCheck] : List Instr), completes (exec i s) = true) ∧
      exec .encFetch s = .next (after (exec .encFetch s)) ∧ exec .decCheck s = .next (after (exec .decCheck s)) := by
  exact ⟨by decide, rfl, rfl⟩

/-- With room and without; with a copy left and without. -/
theorem witness_StoringMicroOperationsFrame :
    let s := block .encEmitV [] 4 8 0 0
    exec .encEmitV s = .next (after (exec .encEmitV s)) ∧ s.noRoomForPair = false ∧
      exec .encEmitV noRoom = .next noRoom.raiseCapacityExceeded ∧ noRoom.noRoomForPair = true ∧
      exec .encEmitC s = .next (after (exec .encEmitC s)) ∧
      exec .decExpand s = .next (after (exec .decExpand s)) ∧ s.expRem = 0 ∧
      exec .decExpand lastCopy = .next (after (exec .decExpand lastCopy)) ∧ lastCopy.expRem ≠ 0 ∧ s.out.wf = true := by
  exact ⟨rfl, rfl, rfl, rfl, rfl, rfl, rfl, rfl, by decide, rfl⟩

/-- A host with the container of H1 and an empty file. -/
def host1 : State :=
  withFiles [("a", [0x41, 0x41, 0x41, 0x42]), ("c", [0x04, 0, 0, 0, 0, 0, 0, 0, 0x41, 0x03, 0x42, 0x01]), ("e", []),
    ("m", [1, 2, 3, 4, 5, 6, 7])]

theorem witness_HostSequencesFrame :
    host1.inp.wf = true ∧
      exec (.compress "a" "b") host1 = .next (after (exec (.compress "a" "b") host1)) ∧
      exec (.decompress "c" "d") host1 = .next (after (exec (.decompress "c" "d") host1)) ∧
      exec (.compress "e" "b") host1 = .next (after (exec (.compress "e" "b") host1)) := by
  exact ⟨rfl, rfl, rfl, rfl⟩

/-- Both raisers, and a step that raises nothing with exactly enough room. -/
theorem witness_RaiseIsPreciseAndOnlyThere :
    let s := block .encEmitV [] 9 6 4 4
    (noRoom.wpos.toNat ≤ noRoom.cap.toNat ∧ noRoom.capExceeded = false ∧
        blockStep noRoom = .next noRoom.raiseCapacityExceeded) ∧
      (tooLong.wpos.toNat ≤ tooLong.cap.toNat ∧ tooLong.capExceeded = false ∧
        blockStep tooLong = .next tooLong.raiseCapacityExceeded) ∧
      (s.wpos.toNat ≤ s.cap.toNat ∧ s.capExceeded = false ∧ blockStep s = .next (after (blockStep s))) := by
  exact ⟨⟨by decide, rfl, rfl⟩, ⟨by decide, rfl, rfl⟩, by decide, rfl, rfl⟩

theorem witness_FlagChangesOnlyAsStated :
    let r : State := { block .done [] 1 1 0 0 with ports := resetPorts, capExceeded := true }
    let a : State := { commanded .done [] 0 1 1 with capExceeded := true }
    let h : State := { block .done [] 1 1 0 0 with capExceeded := true }
    (blockStep r = .next r.resetRegs ∧ r.ports.rst = true) ∧
      (blockStep a = .next (after (blockStep a)) ∧ a.busy = false ∧ a.ports.start = true) ∧
      (blockStep h = .next h ∧ h.ports.rst = false ∧ h.ports.start = false ∧ h.capExceeded = true) ∧
      (blockStep noRoom = .next noRoom.raiseCapacityExceeded ∧ noRoom.raiseCapacityExceeded.capExceeded = true) := by
  exact ⟨⟨rfl, rfl⟩, ⟨rfl, rfl, rfl⟩, ⟨rfl, rfl, rfl, rfl⟩, rfl, rfl⟩

/-- The last byte of the input, read by each state that reads. -/
theorem witness_ReadsStayInsideTheInput :
    let f : State := block .encFetch [1, 2] 2 9 1 2
    let c : State := { block .encCount [0, 0] 2 9 0 0 with runCnt := 1 }
    let v : State := { block .decReadV [1, 2] 2 9 0 0 with opr := 1 }
    let n : State := { block .decReadC [1, 2] 2 9 0 0 with opr := 1, pairVal := 1 }
    (f.Inv ∧ f.inAccess = some 1) ∧ (c.Inv ∧ c.inAccess = some 1) ∧ (v.Inv ∧ v.inAccess = some 0) ∧
      (n.Inv ∧ n.inAccess = some 1) := by
  refine ⟨⟨⟨by decide, by decide, by decide, rfl, rfl, rfl, rfl⟩, by decide⟩,
    ⟨⟨by decide, by decide, by decide, rfl, rfl, ⟨rfl, rfl⟩, by decide, by decide, by decide⟩, by decide⟩,
    ⟨⟨by decide, by decide, by decide, rfl, rfl, rfl, rfl⟩, by decide⟩,
    ⟨⟨by decide, by decide, by decide, rfl, rfl, ⟨rfl, rfl⟩, by decide, rfl⟩, by decide⟩⟩

/-- The last byte of the capacity, the first byte past it, and a capacity of 0. -/
theorem witness_WritesStayInsideTheCapacity :
    let z : State := { block .encEmitV [0x41] 1 0 0 0 with runVal := 0x41, runCnt := 1 }
    (lastCopy.Inv ∧ blockStep lastCopy = .next (after (blockStep lastCopy)) ∧ lastCopy.outAccess = some (0, 7) ∧
        lastCopy.cap.toNat ≤ 1) ∧
      (z.Inv ∧ blockStep z = .next z.raiseCapacityExceeded ∧ z.cap = 0) := by
  exact ⟨⟨lastCopy_inv, rfl, by decide, by decide⟩,
    ⟨by decide, by decide, by decide, rfl, rfl, ⟨rfl, rfl⟩, by decide, by decide, by decide⟩, rfl, rfl⟩

theorem witness_AStepWritesExactlyItsPort :
    let r : State := { lastCopy with ports := resetPorts }
    (lastCopy.out.wf = true ∧ blockStep lastCopy = .next (after (blockStep lastCopy)) ∧
        lastCopy.outAccess = some (0, 7)) ∧
      (State.reset.out.wf = true ∧ blockStep State.reset = .next State.reset ∧ State.reset.outAccess = none) ∧
      (r.out.wf = true ∧ blockStep r = .next r.resetRegs ∧ r.ports.rst = true) := by
  exact ⟨⟨rfl, rfl, by decide⟩, ⟨rfl, rfl, rfl⟩, rfl, rfl, rfl⟩

/-- Two inputs that differ everywhere but in the byte read. -/
theorem witness_AStepReadsOnlyItsPort :
    let s := block .encFetch [1, 2, 3] 3 6 1 0
    (∀ a, s.inAccess = some a → Memory.read .inp [(0, 9), (1, 2), (2, 9)] a.toNat = s.inp.read .inp a.toNat) ∧
      blockStep s = .next (after (blockStep s)) := by
  refine ⟨?_, rfl⟩
  intro a h
  cases h
  rfl

/-- The host's script put into a state. -/
def scripted (s : State) (script : List HostMove) : State := { s with host := { s.host with script := script } }

/-- A busy block; `rst` driven in the turn after the accepting step of a sequence, and in the turn of its end; the last byte
of each buffer written with `start` held at 1. -/
theorem witness_HostLeavesABusyBlockAlone :
    let s := scripted (block .encCount [] 4 8 0 0) [.writeIn 0 1]
    let a := scripted ((commanded .encFetch [] 0 4 8).await (.compress "b" 4)) [.drive resetPorts]
    let d := scripted ((block .done [] 4 8 4 4).await (.compress "b" 4)) [.drive resetPorts]
    let i := scripted (commanded .done [] 0 4 8) [.writeIn 0xFFFFFFFFFFFFFFFF 1]
    let o := scripted (commanded .idle [] 0 4 8) [.writeOut 0xFFFFFFFFFFFFFFFF 1]
    (hostTurn s = .next s ∧ s.busy = true) ∧
      (hostTurn a = .next (after (hostTurn a)) ∧ a.host.script = .drive resetPorts :: []) ∧
      (hostTurn d = .next (after (hostTurn d)) ∧ d.host.script = .drive resetPorts :: []) ∧
      (hostTurn i = .next (after (hostTurn i)) ∧ i.busy = false ∧ i.host.phase = .idle ∧
        i.host.script = .writeIn 0xFFFFFFFFFFFFFFFF 1 :: []) ∧
      (hostTurn o = .next (after (hostTurn o)) ∧ o.busy = false ∧ o.host.phase = .idle ∧
        o.host.script = .writeOut 0xFFFFFFFFFFFFFFFF 1 :: []) := by
  exact ⟨⟨rfl, rfl⟩, ⟨rfl, rfl⟩, ⟨rfl, rfl⟩, ⟨rfl, rfl, rfl, rfl⟩, rfl, rfl, rfl, rfl⟩

theorem witness_EveryStepKeepsTheInvariant :
    (State.reset.Inv ∧ step State.reset = .next State.reset) ∧
      (fullRun.Inv ∧ step fullRun = .next (after (step fullRun))) ∧
      (lastCopy.Inv ∧ step lastCopy = .next (after (step lastCopy))) :=
  ⟨⟨idle_inv _, rfl⟩, ⟨fullRun_inv, rfl⟩, lastCopy_inv, rfl⟩

/-! ### Whole operations -/

/-- Whether an answer is a state outside `DONE`. -/
def notDone (r : Result) : Bool :=
  match r with
  | .next t => decide (t.fsm ≠ .done)
  | .fault _ => true
  | .refused _ => true

theorem endsIn_of {s t : State} {k : Nat} (h : blockRun k s = .next t) (d : t.fsm = .done)
    (n : ∀ j < k, notDone (blockRun j s) = true) : s.endsIn k t := by
  refine ⟨h, d, ?_⟩
  intro j u hj e
  have := n j hj
  rw [e] at this
  simpa [notDone] using this

/-- The hypotheses of the statements about one whole operation on an input. -/
def Starts (s : State) (op : BitVec 1) (input : List Byte) : Prop :=
  s.busy = false ∧ s.ports.rst = false ∧ s.ports.start = true ∧ s.ports.op = op ∧ input.length < 2 ^ 64 ∧
    s.ports.inLen = BitVec.ofNat 64 input.length ∧ s.inp.bytes .inp input.length = input ∧ s.out.wf = true

/-- E1 and E5: an empty input, and one byte with no room. -/
theorem witness_EncodeComputesEnc :
    Starts (commanded .idle [] 0 0 0) 0 [] ∧ Starts (commanded .done [0x41] 0 1 0) 0 [0x41] := by
  simp only [Starts]
  decide

theorem witness_DecodeComputesDec :
    Starts (commanded .idle [] 1 0 0) 1 [] ∧ Starts (commanded .done [0x41, 1] 1 2 0) 1 [0x41, 1] := by
  simp only [Starts]
  decide

/-- E1 takes 2 steps and E5 takes 4. -/
theorem witness_EncodeStepCount :
    (Starts (commanded .idle [] 0 0 0) 0 [] ∧
        ∃ s₁ t, blockStep (commanded .idle [] 0 0 0) = .next s₁ ∧ s₁.endsIn 1 t ∧ t.capExceeded = false) ∧
      (Starts (commanded .done [0x41] 0 1 0) 0 [0x41] ∧
        ∃ s₁ t, blockStep (commanded .done [0x41] 0 1 0) = .next s₁ ∧ s₁.endsIn 3 t ∧ t.capExceeded = true) := by
  refine ⟨⟨witness_EncodeComputesEnc.1, _, after (blockRun 1 (after (blockStep (commanded .idle [] 0 0 0)))), rfl, ?_, ?_⟩,
    witness_EncodeComputesEnc.2, _, after (blockRun 3 (after (blockStep (commanded .done [0x41] 0 1 0)))), rfl, ?_, ?_⟩
  · exact endsIn_of rfl (by decide) (by decide)
  · decide
  · exact endsIn_of rfl (by decide) (by decide)
  · decide

/-- D1 takes 2 steps and D4 takes 4. -/
theorem witness_DecodeStepCount :
    (Starts (commanded .idle [] 1 0 0) 1 [] ∧
        ∃ s₁ t, blockStep (commanded .idle [] 1 0 0) = .next s₁ ∧ s₁.endsIn 1 t ∧ t.capExceeded = false) ∧
      (Starts (commanded .done [0x41, 1] 1 2 0) 1 [0x41, 1] ∧
        ∃ s₁ t, blockStep (commanded .done [0x41, 1] 1 2 0) = .next s₁ ∧ s₁.endsIn 3 t ∧ t.capExceeded = true) := by
  refine ⟨⟨witness_DecodeComputesDec.1, _, after (blockRun 1 (after (blockStep (commanded .idle [] 1 0 0)))), rfl, ?_, ?_⟩,
    witness_DecodeComputesDec.2, _, after (blockRun 3 (after (blockStep (commanded .done [0x41, 1] 1 2 0)))), rfl, ?_, ?_⟩
  · exact endsIn_of rfl (by decide) (by decide)
  · decide
  · exact endsIn_of rfl (by decide) (by decide)
  · decide

/-- Two states that differ in their registers, in `OUT` and in `IN` past the input. -/
theorem witness_ResultDependsOnTheCommandAndInputOnly :
    let s := commanded .idle [0x41, 0x42] 0 1 2
    let u : State := { commanded .done [0x41, 0x43] 0 1 2 with out := [(0, 9)], runVal := 5, capExceeded := true }
    s.busy = false ∧ u.busy = false ∧ s.ports.rst = false ∧ s.ports.start = true ∧ u.ports = s.ports ∧
      s.out.wf = true ∧ u.out.wf = true ∧ ∀ a : Nat, a < s.ports.inLen.toNat → u.inp.read .inp a = s.inp.read .inp a := by
  decide

theorem witness_EmptyInputEndsAtOnce :
    (commanded .idle [1] 0 0 7).busy = false ∧ (commanded .idle [1] 0 0 7).ports.rst = false ∧
      (commanded .idle [1] 0 0 7).ports.start = true ∧ (commanded .idle [1] 0 0 7).ports.inLen = 0 := by decide

/-! ### The transforms -/

theorem witness_EncodingFacts :
    2 * 0 + 1 < (enc [0x41] 2).1.length ∧ 2 * [0x41, (0x42 : Byte)].length ≤ 4 ∧
      (enc [0x41, 0x42] 3).2 = .capacityExceeded := by decide

theorem witness_LongRunsAreSplitGreedily :
    let runs : List (Byte × Nat) := [(0x41, 255), (0x42, 256), (0x41, 1)]
    (∀ r ∈ runs, 1 ≤ r.2) ∧ runs.IsChain (fun r r' => r.1 ≠ r'.1) := by
  exact ⟨by decide, by simp⟩

theorem witness_EncodingIsTheCanonicalPayload :
    let payload : List Byte := [0x41, 2, 0x42, 1]
    payload.length % 2 = 0 ∧ CanonicalPairs payload ∧ expandPairs payload = [0x41, 0x41, 0x42] := by
  exact ⟨by decide, ⟨by decide, by decide, show (1 : Byte) ≠ 0 by decide⟩, by decide⟩

theorem witness_DecodingFacts :
    (1 : Nat) < [0x41, 3, 0x42, (1 : Byte)].length / 2 ∧ (expandPairs [0x41, 3, 0x42, 1]).length ≤ 4 ∧
      (dec [0x41, 3, 0x42, 1] 3).2 = .capacityExceeded := by decide

theorem witness_DanglingByteIsIgnored :
    let s := block .decReadV [0x41, 1, 9] 3 5 2 1
    [0x41, (1 : Byte)].length % 2 = 0 ∧ s.fsm = .decReadV ∧ s.ports.rst = false ∧
      s.len.toNat = s.rpos.toNat + 1 := by decide

/-- DM8 with no byte of room. -/
theorem witness_ZeroCountPairIsSkipped :
    let s := block .decCheck [0x41, 0] 2 0 0 0
    [0x41, (1 : Byte)].length % 2 = 0 ∧ s.fsm = .decCheck ∧ s.ports.rst = false ∧ s.pairCnt = 0 ∧
      s.rpos.toNat + 2 ≤ s.len.toNat := by decide

theorem witness_DecodingInvertsEncoding :
    (2 * [0x41, (0x42 : Byte)].length ≤ 4 ∧ [0x41, (0x42 : Byte)].length ≤ 2) ∧
      (enc [0x41, 0x42] 3).2 = .capacityExceeded := by decide

/-! ### The host -/

theorem witness_HeaderHoldsTheSize : 0 < 8 ∧ 7 < 8 := by decide

theorem witness_CompressBegins :
    host1.hostFree = true ∧ findFile host1.host.files "a" = some [0x41, 0x41, 0x41, 0x42] ∧
      [0x41, 0x41, 0x41, (0x42 : Byte)] ≠ [] ∧ [0x41, 0x41, 0x41, (0x42 : Byte)].length < 2 ^ 64 := by decide

/-- H2, and H12 for the payload of no bytes. -/
theorem witness_DecompressBegins :
    let z := withFiles [("z", [0, 0, 0, 0, 0, 0, 0, 0])]
    (host1.hostFree = true ∧
        findFile host1.host.files "c" = some (headerBytes .little 4 ++ [0x41, 0x03, 0x42, 0x01]) ∧
        [0x41, 0x03, 0x42, (0x01 : Byte)].length < 2 ^ 64) ∧
      z.hostFree = true ∧ findFile z.host.files "z" = some (headerBytes .little 0 ++ []) := by decide

theorem witness_EmptyOrShortInputAborts :
    host1.hostFree = true ∧ findFile host1.host.files "e" = some [] ∧ findFile host1.host.files "no" = none ∧
      findFile host1.host.files "m" = some [1, 2, 3, 4, 5, 6, 7] ∧ [1, 2, 3, 4, 5, 6, (7 : Byte)] ≠ [] ∧
      [1, 2, 3, 4, 5, 6, (7 : Byte)].length < 8 := by decide

theorem witness_HostSequencesNeedTheBuffers :
    (block .encCount [] 4 8 0 0).busy = true ∧
      (State.reset.await (.compress "b" 4)).host.phase ≠ .idle := by decide

theorem witness_CompressFinishes :
    let s := (block .done [] 4 8 4 4).await (.compress "b" 4)
    s.host.phase = .compress "b" 4 ∧ s.ports.start = false ∧ s.done = true ∧ "b" ∉ s.host.unwritable := by decide

theorem witness_DecompressFinishes :
    let s := (block .done [] 4 5 4 4).await (.decompress "d" 5)
    s.host.phase = .decompress "d" 5 ∧ s.ports.start = false ∧ s.done = true ∧ "d" ∉ s.host.unwritable := by decide

theorem witness_CompressWritesTheContainer :
    (host1.hostFree = true ∧ host1.inp.wf = true ∧ host1.out.wf = true ∧
        findFile host1.host.files "a" = some [0x41, 0x41, 0x41, 0x42] ∧ [0x41, 0x41, 0x41, (0x42 : Byte)] ≠ [] ∧
        2 * [0x41, 0x41, 0x41, (0x42 : Byte)].length < 2 ^ 64 ∧ "b" ∉ host1.host.unwritable) ∧
      (∀ levels rest, host1.host.script ≠ .drive levels :: rest) ∧
      exec (.compress "a" "b") host1 = .next (after (exec (.compress "a" "b") host1)) := by
  exact ⟨by decide, (fun _ _ h => by cases h), rfl⟩

theorem witness_DecompressWritesTheDecoding :
    (host1.hostFree = true ∧ host1.inp.wf = true ∧ host1.out.wf = true ∧
        findFile host1.host.files "c" = some (headerBytes .little 4 ++ [0x41, 0x03, 0x42, 0x01]) ∧
        [0x41, 0x03, 0x42, (0x01 : Byte)].length < 2 ^ 64 ∧ "d" ∉ host1.host.unwritable) ∧
      (∀ levels rest, host1.host.script ≠ .drive levels :: rest) ∧
      exec (.decompress "c" "d") host1 = .next (after (exec (.decompress "c" "d") host1)) := by
  exact ⟨by decide, (fun _ _ h => by cases h), rfl⟩

theorem witness_ContainersKeepTheFile :
    (host1.hostFree = true ∧ host1.inp.wf = true ∧ host1.out.wf = true ∧
        findFile host1.host.files "a" = some [0x41, 0x41, 0x41, 0x42] ∧ [0x41, 0x41, 0x41, (0x42 : Byte)] ≠ [] ∧
        2 * [0x41, 0x41, 0x41, (0x42 : Byte)].length < 2 ^ 64 ∧ "b" ∉ host1.host.unwritable ∧
        "r" ∉ host1.host.unwritable) ∧
      (∀ levels rest, host1.host.script ≠ .drive levels :: rest) ∧
      exec (.compress "a" "b") host1 = .next (after (exec (.compress "a" "b") host1)) := by
  exact ⟨by decide, (fun _ _ h => by cases h), rfl⟩

theorem witness_CommandLineIsReadAsStated :
    let s : State := { State.reset with host := { HostState.quiet with script := [.commandLine ["compress", "a"]] } }
    ["compress", "a"].length ≠ 3 ∧ ["compress", "a", "b", "c"].length ≠ 3 ∧
      ("Compress" ≠ "compress" ∧ "Compress" ≠ "decompress") ∧ s.host.phase = .idle ∧
      s.host.script = .commandLine ["compress", "a"] :: [] ∧ parseCommandLine ["compress", "a"] = .badUsage := by decide

end Sys2Proof.Tests
end

/-! The outputs, the flag and the invariant of the block (10_state.md). The proofs about a step go over the rows of `BlockMove` and
name the rows that change what they speak of. -/

namespace Sys2Proof.Machine

variable {s t : State}

/-! ## The outputs (R34) -/

theorem State.busy_iff (s : State) :
    s.busy = true ↔
      s.fsm ∈ [Fsm.encFetch, .encCount, .encEmitV, .encEmitC, .decReadV, .decReadC, .decCheck, .decExpand] := by
  cases f : s.fsm <;> simp [State.busy, f, Fsm.busy]

theorem State.done_iff (s : State) : s.done = true ↔ s.fsm = .done := beq_iff_eq

theorem State.outputs_of_idle (f : s.fsm = .idle) : s.busy = false ∧ s.done = false := by
  simp [State.busy, State.done, f, Fsm.busy]

/-- Settles O1: the registers as `State.reset` lists them; the outputs follow from `fsm` and `wpos`. -/
theorem resetStateValues : Obligations.ResetStateValues := by
  obtain ⟨hb, hd⟩ : State.reset.busy = false ∧ State.reset.done = false := State.outputs_of_idle rfl
  exact ⟨rfl, rfl, rfl, rfl, rfl, rfl, rfl, rfl, rfl, rfl, rfl, rfl, hb, hd, rfl⟩

/-- Settles O14: the outputs by the value of `fsm`; a reset step is the row `reset`. -/
theorem outputsFollowTheState : Obligations.OutputsFollowTheState := by
  intro s
  refine ⟨s.busy_iff, s.done_iff, rfl, State.outputs_of_idle, fun r => ?_⟩
  exact ⟨s.resetRegs, (blockStep_iff s _).2 (.reset r), rfl, rfl⟩

/-! ## The flag (R33, R209) -/

/-- What a move does to `cap_exceeded`: reset and the accepting step clear it, the two raises set it and enter `DONE`, every
other move keeps it. -/
theorem BlockMove.flag_cases (h : BlockMove s t) :
    (s.ports.rst = true ∧ t.capExceeded = false) ∨
      (s.ports.rst = false ∧ s.busy = false ∧ s.ports.start = true ∧ t.capExceeded = false) ∨
      (s.ports.rst = false ∧ (s.fsm = .encEmitV ∨ s.fsm = .decCheck) ∧ t.fsm = .done ∧ t.capExceeded = true) ∨
      (s.ports.rst = false ∧ (s.busy = true ∨ s.ports.start = false) ∧ t.capExceeded = s.capExceeded) := by
  cases h with
  | reset r => exact .inl ⟨r, rfl⟩
  | accept r f w => exact .inr (.inl ⟨r, s.busy_eq_false_iff.2 f, w, rfl⟩)
  | raiseEnc r f n => exact .inr (.inr (.inl ⟨r, .inl f, rfl, rfl⟩))
  | raiseDec r f n => exact .inr (.inr (.inl ⟨r, .inr f, rfl, rfl⟩))
  | hold r f w => exact .inr (.inr (.inr ⟨r, .inr w, rfl⟩))
  | _ r f => exact .inr (.inr (.inr ⟨r, .inl (by simp [State.busy_iff, f]), rfl⟩))

/-- No row of R95 reads the flag: with another value of it the state makes the same move, and the next states differ in the
flag at most. -/
theorem BlockMove.with_flag (h : BlockMove s t) (b : Bool) :
    ∃ u, BlockMove { s with capExceeded := b } u ∧ { u with capExceeded := t.capExceeded } = t := by
  cases h with
  | reset r => exact ⟨_, .reset r, rfl⟩
  | hold r f w => exact ⟨_, .hold r f w, rfl⟩
  | accept r f w => exact ⟨_, .accept r f w, rfl⟩
  | inputEnd r f e => exact ⟨_, .inputEnd r f e, rfl⟩
  | fetch r f e => exact ⟨_, .fetch r f e, rfl⟩
  | count r f g => exact ⟨_, .count r f g, rfl⟩
  | closeRun r f g => exact ⟨_, .closeRun r f g, rfl⟩
  | raiseEnc r f n => exact ⟨_, .raiseEnc r f n, rfl⟩
  | emitValue r f n => exact ⟨_, .emitValue r f n, rfl⟩
  | emitCount r f => exact ⟨_, .emitCount r f, rfl⟩
  | payloadEnd r f n => exact ⟨_, .payloadEnd r f n, rfl⟩
  | readValue r f n => exact ⟨_, .readValue r f n, rfl⟩
  | readCount r f => exact ⟨_, .readCount r f, rfl⟩
  | raiseDec r f n => exact ⟨_, .raiseDec r f n, rfl⟩
  | consume r f n => exact ⟨_, .consume r f n, rfl⟩
  | runDone r f z => exact ⟨_, .runDone r f z, rfl⟩
  | copy r f z => exact ⟨_, .copy r f z, rfl⟩

/-- Settles O29: the first four clauses are read off `flag_cases`, the last is `with_flag`. -/
theorem flagChangesOnlyAsStated : Obligations.FlagChangesOnlyAsStated := by
  intro s t h
  have hm := (blockStep_iff s t).1 h
  have hread : ∀ b : Bool, ∃ u, blockStep { s with capExceeded := b } = .next u ∧
      { u with capExceeded := t.capExceeded } = t := by
    intro b
    obtain ⟨u, hu, e⟩ := hm.with_flag b
    exact ⟨u, (blockStep_iff _ u).2 hu, e⟩
  obtain ⟨r, c⟩ | ⟨r, b, w, c⟩ | ⟨r, f, -, c⟩ | ⟨r, k, c⟩ := hm.flag_cases
  · exact ⟨fun _ => c, fun _ _ => c, by simp [r], by simp [c], hread⟩
  · exact ⟨fun _ => c, fun _ _ => c, by simp [b, w], by simp [c], hread⟩
  · have b : s.busy = true := by rcases f with f | f <;> simp [State.busy_iff, f]
    exact ⟨by simp [r], by simp [b], fun _ _ _ => c, fun _ => .inr f, hread⟩
  · have hlost : s.busy = false → s.ports.start = true → t.capExceeded = false := by
      rcases k with b | w <;> simp [*]
    exact ⟨by simp [r], hlost, fun _ _ c' => c.trans c', fun c' => .inl (c.symm.trans c'), hread⟩

/-! ## The invariant (R27, R33, R121, R150) -/

/-- After a reset step the registers meet the invariant whatever they were; the buffers are not touched. -/
theorem State.resetRegs_inv (hi : s.inp.wf = true) (ho : s.out.wf = true) : s.resetRegs.Inv where
  scan := Nat.le_refl _
  write := Nat.le_refl _
  flag := Bool.noConfusion
  inWf := hi
  outWf := ho
  phase := trivial

/-- Settles O35: `State.reset` has the registers of a reset step, and its buffers list nothing. -/
theorem resetMeetsTheInvariant : Obligations.ResetMeetsTheInvariant :=
  State.resetRegs_inv (s := State.reset) rfl rfl

/-! What the invariant says in each busy state. -/

theorem State.phaseInv_encCount_iff (f : s.fsm = .encCount) : s.PhaseInv ↔ s.EncInv ∧ s.RunInv := by
  simp only [State.PhaseInv, f]

theorem State.phaseInv_decExpand_iff (f : s.fsm = .decExpand) : s.PhaseInv ↔ s.DecInv ∧ s.ExpandInv := by
  simp only [State.PhaseInv, f]

theorem State.Inv.encFetch (h : s.Inv) (f : s.fsm = .encFetch) : s.EncInv := by
  simpa only [State.PhaseInv, f] using h.phase

theorem State.Inv.encCount (h : s.Inv) (f : s.fsm = .encCount) : s.EncInv ∧ s.RunInv :=
  (State.phaseInv_encCount_iff f).1 h.phase

theorem State.Inv.encEmitV (h : s.Inv) (f : s.fsm = .encEmitV) : s.EncInv ∧ s.RunInv := by
  simpa only [State.PhaseInv, f] using h.phase

theorem State.Inv.encEmitC (h : s.Inv) (f : s.fsm = .encEmitC) :
    s.EncInv ∧ s.RunInv ∧ s.wpos.toNat + 2 ≤ s.cap.toNat := by
  simpa only [State.PhaseInv, f] using h.phase

theorem State.Inv.decReadV (h : s.Inv) (f : s.fsm = .decReadV) : s.DecInv := by
  simpa only [State.PhaseInv, f] using h.phase

theorem State.Inv.decReadC (h : s.Inv) (f : s.fsm = .decReadC) : s.DecInv ∧ s.PairInv := by
  simpa only [State.PhaseInv, f] using h.phase

theorem State.Inv.decCheck (h : s.Inv) (f : s.fsm = .decCheck) :
    s.DecInv ∧ s.PairInv ∧ s.pairCnt = s.inp.read .inp (s.rpos.toNat + 1) := by
  simpa only [State.PhaseInv, f] using h.phase

theorem State.Inv.decExpand (h : s.Inv) (f : s.fsm = .decExpand) : s.DecInv ∧ s.ExpandInv :=
  (State.phaseInv_decExpand_iff f).1 h.phase

/-- A position that stays inside a buffer when it advances does not wrap. -/
theorem word_add_toNat_of_le {a b limit : Word} (h : a.toNat + b.toNat ≤ limit.toNat) :
    (a + b).toNat = a.toNat + b.toNat :=
  word_add_toNat a b (Nat.lt_of_le_of_lt h limit.isLt)

/-- With a copy left, the position after it is inside the capacity, and one copy fewer is left. -/
theorem State.ExpandInv.copy_toNat (h : s.ExpandInv) (z : s.expRem ≠ 0) :
    (s.wpos + 1).toNat = s.wpos.toNat + 1 ∧ (s.expRem - 1).toNat = s.expRem.toNat - 1 ∧ 1 ≤ s.expRem.toNat := by
  obtain ⟨hroom, -⟩ := h
  have hpos : 1 ≤ s.expRem.toNat := Nat.pos_of_ne_zero fun e => z (BitVec.eq_of_toNat_eq e)
  exact ⟨word_add_toNat_of_le (b := 1) (Nat.le_trans (Nat.add_le_add_left hpos _) hroom),
    BitVec.toNat_sub_of_le (BitVec.le_def.2 hpos), hpos⟩

/-- R27 for `rpos`: it moves at the accepting step, by a whole run in `ENC_EMIT_C` and by a whole Pair in `DEC_CHECK`. -/
theorem BlockMove.keeps_scan (h : BlockMove s t) (hI : s.Inv) : t.rpos.toNat ≤ t.len.toNat := by
  cases h with
  | reset r => exact Nat.le_refl _
  | accept r f w => exact Nat.zero_le _
  | emitCount r f =>
    obtain ⟨-, ⟨-, hrun, -⟩, -⟩ := hI.encEmitC f
    exact (runEnd_toNat s hrun).trans_le hrun
  | consume r f n =>
    obtain ⟨-, ⟨hpair, -⟩, -⟩ := hI.decCheck f
    exact (word_add_toNat_of_le (b := 2) hpair).trans_le hpair
  | _ => exact hI.scan

/-- R27 for `wpos`: it moves at the accepting step, by a Pair in `ENC_EMIT_C` and by a byte in `DEC_EXPAND`. -/
theorem BlockMove.keeps_write (h : BlockMove s t) (hI : s.Inv) : t.wpos.toNat ≤ t.cap.toNat := by
  cases h with
  | reset r => exact Nat.le_refl _
  | accept r f w => exact Nat.zero_le _
  | emitCount r f =>
    obtain ⟨-, -, hroom⟩ := hI.encEmitC f
    exact (word_add_toNat_of_le (b := 2) hroom).trans_le hroom
  | copy r f z =>
    obtain ⟨-, hexp⟩ := hI.decExpand f
    obtain ⟨hw, -, hpos⟩ := hexp.copy_toNat z
    obtain ⟨hroom, -⟩ := hexp
    exact hw.trans_le (show s.wpos.toNat + 1 ≤ s.cap.toNat by omega)
  | _ => exact hI.write

/-- R33, R203: a move that leaves the flag set ends in `DONE`. -/
theorem BlockMove.keeps_flag (h : BlockMove s t) (hI : s.Inv) : t.capExceeded = true → t.fsm = .done := by
  intro c
  cases h with
  | reset r => cases c
  | hold r f w => exact hI.flag c
  | accept r f w => cases c
  | inputEnd r f e => rfl
  | payloadEnd r f n => rfl
  | raiseEnc r f n => rfl
  | raiseDec r f n => rfl
  | _ r f => exact absurd (f.symm.trans (hI.flag c)) (by decide)

/-- A store keeps the canonical form of `OUT`. -/
theorem State.writeOut_wf (s : State) (a : Word) (v : Byte) (h : s.out.wf = true) : (s.writeOut a v).out.wf = true :=
  Memory.write_wf s.out a.toNat v a.isLt h

theorem BlockMove.keeps_outWf (h : BlockMove s t) (ho : s.out.wf = true) : t.out.wf = true := by
  cases h with
  | emitValue r f n => exact s.writeOut_wf _ _ ho
  | emitCount r f => exact s.writeOut_wf _ _ ho
  | copy r f z => exact s.writeOut_wf _ _ ho
  | _ => exact ho

/-! The facts of R121 and R150, each where a move makes it anew. -/

/-- The accepting step enters the datapath of the command with both positions 0. -/
theorem State.accept_phaseInv (s : State) (op : BitVec 1) (n c : Word) : (s.accept op n c).PhaseInv := by
  rcases BitVec.eq_zero_or_eq_one op with rfl | rfl <;> exact ⟨rfl, rfl⟩

/-- The byte at `rpos` is a run of one byte. -/
theorem State.fetch_runInv (h : s.rpos.toNat ≤ s.len.toNat) (e : s.rpos ≠ s.len) :
    State.RunInv { s with runVal := s.scanByte, runCnt := 1, fsm := .encCount } := by
  have hlt : s.rpos.toNat < s.len.toNat := Nat.lt_of_le_of_ne h fun e' => e (BitVec.eq_of_toNat_eq e')
  refine ⟨Nat.le_refl _, hlt, fun j hj => ?_⟩
  obtain rfl : j = 0 := Nat.lt_one_iff.1 hj
  rfl

/-- One more byte of the run's value makes the run longer by one. -/
theorem State.RunInv.count (h : s.RunInv) (g : s.runGoesOn = true) : State.RunInv { s with runCnt := s.runCnt + 1 } := by
  obtain ⟨hpos, hrun, hall⟩ := h
  obtain ⟨hmax, hin, hnext⟩ := (runGoesOn_iff s hrun).1 g
  have hc : (s.runCnt + 1).toNat = s.runCnt.toNat + 1 := by
    rw [BitVec.toNat_add]
    exact Nat.mod_eq_of_lt (Nat.succ_lt_succ hmax)
  refine ⟨by simp only [hc]; omega, by simp only [hc]; omega, fun j hj => ?_⟩
  simp only [hc] at hj
  obtain hlt | rfl := Nat.lt_succ_iff_lt_or_eq.1 hj
  · exact hall j hlt
  · exact hnext

/-- The run of the Pair that `DEC_CHECK` consumes fits, and the Pair is the one before the new `rpos`. -/
theorem State.PairInv.consume (h : s.PairInv) (hc : s.pairCnt = s.inp.read .inp (s.rpos.toNat + 1))
    (hw : s.wpos.toNat ≤ s.cap.toNat) (n : s.noRoomForRun = false) :
    State.ExpandInv { s with expRem := s.pairCnt, rpos := s.rpos + 2, fsm := .decExpand } := by
  obtain ⟨hpair, hval⟩ := h
  have hr : (s.rpos + 2).toNat = s.rpos.toNat + 2 := word_add_toNat_of_le hpair
  have hfits : ¬ s.pairCnt.toNat > s.cap.toNat - s.wpos.toNat := by
    rw [← noRoomForRun_iff s hw, n]
    decide
  refine ⟨by dsimp only; omega, Nat.le_refl _, ?_, ?_, ?_⟩ <;> simp only [hr]
  · omega
  · exact hval
  · exact hc

/-- One copy moves `wpos` and the copies left by one, in opposite directions. -/
theorem State.ExpandInv.copy (h : s.ExpandInv) (z : s.expRem ≠ 0) :
    State.ExpandInv { s.writeOut s.valueAddr s.pairVal with wpos := s.wpos + 1, expRem := s.expRem - 1 } := by
  obtain ⟨hw, he, hpos⟩ := h.copy_toNat z
  obtain ⟨hroom, hleft, hpair⟩ := h
  refine ⟨?_, ?_, hpair⟩
  · simp only [hw, he, State.writeOut_cap]
    omega
  · simp only [he, State.writeOut_pairCnt]
    omega

/-- R121, R150: each move leads to a state whose facts hold. -/
theorem BlockMove.keeps_phase (h : BlockMove s t) (hI : s.Inv) : t.PhaseInv := by
  cases h with
  | reset r => trivial
  | hold r f w => exact hI.phase
  | accept r f w => exact s.accept_phaseInv _ _ _
  | inputEnd r f e => trivial
  | fetch r f e => exact ⟨hI.encFetch f, State.fetch_runInv hI.scan e⟩
  | count r f g =>
    obtain ⟨henc, hrun⟩ := hI.encCount f
    refine (State.phaseInv_encCount_iff ?_).2 ⟨henc, hrun.count g⟩
    exact f
  | closeRun r f g => exact hI.encCount f
  | raiseEnc r f n => trivial
  | emitValue r f n =>
    obtain ⟨henc, hrun⟩ := hI.encEmitV f
    have hroom : ¬ s.cap.toNat - s.wpos.toNat < 2 := by
      rw [← noRoomForPair_iff s hI.write, n]
      decide
    exact ⟨henc, hrun, show s.wpos.toNat + 2 ≤ s.cap.toNat by omega⟩
  | emitCount r f =>
    obtain ⟨⟨hop, heven⟩, -, hroom⟩ := hI.encEmitC f
    have hw : (s.wpos + 2).toNat = s.wpos.toNat + 2 := word_add_toNat_of_le hroom
    exact ⟨hop, show (s.wpos + 2).toNat % 2 = 0 by omega⟩
  | payloadEnd r f n => trivial
  | readValue r f n =>
    have hleft : ¬ s.len.toNat - s.rpos.toNat < 2 := by
      rw [← noPairLeft_iff s hI.scan, n]
      decide
    exact ⟨hI.decReadV f, show s.rpos.toNat + 2 ≤ s.len.toNat by omega, rfl⟩
  | readCount r f =>
    obtain ⟨hdec, hpair⟩ := hI.decReadC f
    have hr : (s.rpos + 1).toNat = s.rpos.toNat + 1 := word_add_toNat_of_le (Nat.le_of_succ_le hpair.1)
    exact ⟨hdec, hpair, congrArg (s.inp.read .inp) hr⟩
  | raiseDec r f n => trivial
  | consume r f n =>
    obtain ⟨⟨hop, heven⟩, hpair, hcnt⟩ := hI.decCheck f
    have hr : (s.rpos + 2).toNat = s.rpos.toNat + 2 := word_add_toNat_of_le hpair.1
    exact ⟨⟨hop, show (s.rpos + 2).toNat % 2 = 0 by omega⟩, hpair.consume hcnt hI.write n⟩
  | runDone r f z => exact (hI.decExpand f).1
  | copy r f z =>
    obtain ⟨hdec, hexp⟩ := hI.decExpand f
    refine (State.phaseInv_decExpand_iff ?_).2 ⟨hdec, hexp.copy z⟩
    exact f

/-- A step of the block keeps the invariant. -/
theorem BlockMove.keeps_inv (h : BlockMove s t) (hI : s.Inv) : t.Inv where
  scan := h.keeps_scan hI
  write := h.keeps_write hI
  flag := h.keeps_flag hI
  inWf := h.keeps.1 ▸ hI.inWf
  outWf := h.keeps_outWf hI.outWf
  phase := h.keeps_phase hI

/-- Where the host owns the buffers, no fact of the sequencer state speaks of them (R60). -/
theorem State.phaseInv_of_hostOwns (own : s.hostOwns = true) : s.PhaseInv := by
  have hb : s.busy = false := by simpa [State.hostOwns] using own
  rcases s.busy_eq_false_iff.1 hb with f | f <;> simp only [State.PhaseInv, f]

/-- The host's turn keeps the invariant: it writes a buffer in `IDLE` and `DONE` only, and no register ever. -/
theorem HostChange.keeps_inv (h : HostChange s t) (hI : s.Inv) : t.Inv := by
  cases h with
  | outside pt hs => exact ⟨hI.scan, hI.write, hI.flag, hI.inWf, hI.outWf, hI.phase⟩
  | load own a bs fits pt hs =>
    exact ⟨hI.scan, hI.write, hI.flag, Memory.writeBytes_wf bs s.inp a fits hI.inWf, hI.outWf,
      State.phaseInv_of_hostOwns own⟩
  | store own a v pt hs =>
    exact ⟨hI.scan, hI.write, hI.flag, hI.inWf, s.writeOut_wf a v hI.outWf, State.phaseInv_of_hostOwns own⟩

/-- Settles O36: a step is a move of the block and then the host's turn, and each keeps the invariant. -/
theorem everyStepKeepsTheInvariant : Obligations.EveryStepKeepsTheInvariant := by
  intro s t hI h
  obtain ⟨u, hmove, hturn⟩ := step_next h
  exact (hostTurn_change hturn).keeps_inv (hmove.keeps_inv hI)

end Sys2Proof.Machine

/-! The accesses of a step to the two buffers (20_memory.md), and the host's right to them (R61). -/

namespace Sys2Proof.Machine

variable {s t : State}

/-! ## The buffer ports (R51, R52, R55, R56)

One lemma goes over the rows of R95: `BlockMove.with_buffers` makes the same move with other buffers. What a step changes in `OUT`
and what it can see of either buffer both follow from it. -/

/-- The contents `m` of `OUT` after a step from `s`, by the write port alone. -/
def State.storeInto (s : State) (m : Memory) : Memory :=
  if s.ports.rst then m
  else
    match s.outAccess with
    | none => m
    | some (a, v) => m.write a.toNat v

theorem State.storeInto_of_rst (r : s.ports.rst = true) (m : Memory) : s.storeInto m = m := if_pos r

theorem State.storeInto_of_none (o : s.outAccess = none) (m : Memory) : s.storeInto m = m := by
  simp [State.storeInto, o]

theorem State.storeInto_of_some (r : s.ports.rst = false) {a : Word} {v : Byte} (o : s.outAccess = some (a, v))
    (m : Memory) : s.storeInto m = m.write a.toNat v := by
  simp [State.storeInto, r, o]

/-- The write port names a byte in three states of the sequencer only. -/
theorem State.outAccess_eq_none (h : s.fsm ∉ [Fsm.encEmitV, .encEmitC, .decExpand]) : s.outAccess = none := by
  cases f : s.fsm <;> simp_all [State.outAccess]

/-- `m` holds the byte of `IN` that the read port names, if it names one. -/
def State.AgreesAtRead (s : State) (m : Memory) : Prop :=
  ∀ a, s.inAccess = some a → m.read .inp a.toNat = s.inp.read .inp a.toNat

/-- `ENC_COUNT` compares the byte after the run only where its read port names that byte. -/
theorem State.AgreesAtRead.runGoesOn {m : Memory} (h : s.AgreesAtRead m) (f : s.fsm = .encCount) (m' : Memory) :
    State.runGoesOn { s with inp := m, out := m' } = s.runGoesOn := by
  rw [Bool.eq_iff_iff]
  simp only [State.runGoesOn, Bool.and_eq_true, decide_eq_true_eq, beq_iff_eq]
  refine and_congr_right fun c => ?_
  have hread : s.inAccess = some s.runEnd := by
    simp only [State.inAccess, f]
    exact if_pos c
  have hb : m.read .inp s.runEnd.toNat = s.runNextByte := h s.runEnd hread
  exact Eq.congr_left hb

/-- A move with other buffers: the state makes the same move if its input agrees at the read port, whatever `OUT` holds. -/
theorem BlockMove.with_buffers (h : BlockMove s t) {m : Memory} (hread : s.AgreesAtRead m) (m' : Memory) :
    BlockMove { s with inp := m, out := m' } { t with inp := m, out := s.storeInto m' } := by
  have keep : s.fsm ∉ [Fsm.encEmitV, .encEmitC, .decExpand] → s.storeInto m' = m' :=
    fun f => State.storeInto_of_none (State.outAccess_eq_none f) m'
  cases h with
  | reset r =>
    rw [State.storeInto_of_rst r]
    exact .reset r
  | hold r f w =>
    rw [keep (by rcases f with f | f <;> simp [f])]
    exact .hold r f w
  | accept r f w =>
    rw [keep (by rcases f with f | f <;> simp [f])]
    exact .accept r f w
  | inputEnd r f e =>
    rw [keep (by simp [f])]
    exact .inputEnd r f e
  | fetch r f e =>
    have hb : m.read .inp s.rpos.toNat = s.scanByte := hread s.rpos (by simp [State.inAccess, State.inputEnded, f, e])
    rw [keep (by simp [f]), ← hb]
    exact .fetch r f e
  | count r f g =>
    rw [keep (by simp [f])]
    exact .count r f ((hread.runGoesOn f m').trans g)
  | closeRun r f g =>
    rw [keep (by simp [f])]
    exact .closeRun r f ((hread.runGoesOn f m').trans g)
  | raiseEnc r f n =>
    rw [State.storeInto_of_none (by simp [State.outAccess, f, n])]
    exact .raiseEnc r f n
  | emitValue r f n =>
    rw [State.storeInto_of_some r (a := s.valueAddr) (v := s.runVal) (by simp [State.outAccess, f, n])]
    exact .emitValue r f n
  | emitCount r f =>
    rw [State.storeInto_of_some r (a := s.countAddr) (v := s.runCnt) (by simp [State.outAccess, f])]
    exact .emitCount r f
  | payloadEnd r f n =>
    rw [keep (by simp [f])]
    exact .payloadEnd r f n
  | readValue r f n =>
    have hb : m.read .inp s.rpos.toNat = s.scanByte := hread s.rpos (by simp [State.inAccess, f, n])
    rw [keep (by simp [f]), ← hb]
    exact .readValue r f n
  | readCount r f =>
    have hb : m.read .inp (s.rpos + 1).toNat = s.countByte := hread (s.rpos + 1) (by simp [State.inAccess, f])
    rw [keep (by simp [f]), ← hb]
    exact .readCount r f
  | raiseDec r f n =>
    rw [keep (by simp [f])]
    exact .raiseDec r f n
  | consume r f n =>
    rw [keep (by simp [f])]
    exact .consume r f n
  | runDone r f z =>
    rw [State.storeInto_of_none (by simp [State.outAccess, f, z])]
    exact .runDone r f z
  | copy r f z =>
    rw [State.storeInto_of_some r (a := s.valueAddr) (v := s.pairVal) (by simpa [State.outAccess, f] using z)]
    exact .copy r f z

/-- `OUT` after a move is what the write port makes of it. -/
theorem BlockMove.out_eq (h : BlockMove s t) : t.out = s.storeInto s.out := by
  have h' : BlockMove s { t with inp := s.inp, out := s.storeInto s.out } := h.with_buffers (fun _ _ => rfl) s.out
  exact congrArg State.out (h.unique h')

/-- Settles O33: the same move with the other input and the same `OUT`. -/
theorem aStepReadsOnlyItsPort : Obligations.AStepReadsOnlyItsPort := by
  intro s t m hread h
  have hm := (blockStep_iff s t).1 h
  have hm' := hm.with_buffers hread s.out
  rw [← hm.out_eq] at hm'
  exact (blockStep_iff _ _).2 hm'

/-- Settles O32: `OUT` is what the write port makes of it, and a write changes one byte. -/
theorem aStepWritesExactlyItsPort : Obligations.AStepWritesExactlyItsPort := by
  intro s t hwf h b
  rw [((blockStep_iff s t).1 h).out_eq]
  cases r : s.ports.rst with
  | true => rw [State.storeInto_of_rst r, if_pos rfl]
  | false =>
    rw [if_neg Bool.false_ne_true]
    cases o : s.outAccess with
    | none => rw [State.storeInto_of_none o]
    | some access =>
      obtain ⟨a, v⟩ := access
      rw [State.storeInto_of_some r o, Memory.read_write .out s.out a.toNat v hwf]

/-- Settles O30: each of the four reading states has its bound, the guard of its read (`ENC_FETCH`, `ENC_COUNT`, `DEC_READ_V`)
or the whole Pair at `rpos` (`DEC_READ_C`). -/
theorem readsStayInsideTheInput : Obligations.ReadsStayInsideTheInput := by
  intro s a hI ha
  have hscan := hI.scan
  cases f : s.fsm <;> simp only [State.inAccess, f, reduceCtorEq, Option.ite_none_left_eq_some,
    Option.ite_none_right_eq_some, Option.some.injEq] at ha
  case encFetch =>
    obtain ⟨e, rfl⟩ := ha
    rw [inputEnded_iff] at e
    omega
  case encCount =>
    obtain ⟨⟨-, hin⟩, rfl⟩ := ha
    exact BitVec.lt_def.1 hin
  case decReadV =>
    obtain ⟨n, rfl⟩ := ha
    rw [noPairLeft_iff s hscan] at n
    omega
  case decReadC =>
    subst ha
    obtain ⟨-, hpair, -⟩ := hI.decReadC f
    rw [word_add_toNat_of_le (b := 1) (Nat.le_of_succ_le hpair)]
    exact hpair

/-- R52: each of the three storing states has room for the byte it stores. -/
theorem State.Inv.store_lt_cap (hI : s.Inv) {a : Word} {v : Byte} (ho : s.outAccess = some (a, v)) :
    a.toNat < s.cap.toNat := by
  have hwrite := hI.write
  cases f : s.fsm <;> simp only [State.outAccess, f, reduceCtorEq, Option.ite_none_left_eq_some, Option.some.injEq,
    Prod.mk.injEq, State.valueAddr] at ho
  case encEmitV =>
    obtain ⟨n, rfl, -⟩ := ho
    rw [noRoomForPair_iff s hwrite] at n
    omega
  case encEmitC =>
    obtain ⟨rfl, -⟩ := ho
    obtain ⟨-, -, hroom⟩ := hI.encEmitC f
    rw [countAddr_toNat s hroom]
    omega
  case decExpand =>
    obtain ⟨z, rfl, -⟩ := ho
    obtain ⟨-, hexp⟩ := hI.decExpand f
    obtain ⟨-, -, hpos⟩ := hexp.copy_toNat z
    obtain ⟨hroom, -⟩ := hexp
    omega

/-- With a capacity of 0 a step stores nothing. -/
theorem State.Inv.outAccess_of_cap_zero (hI : s.Inv) (hc : s.cap = 0) : s.outAccess = none := by
  cases o : s.outAccess with
  | none => rfl
  | some access => exact absurd (hI.store_lt_cap o) (by simp [hc])

/-- Settles O31: the bound is `store_lt_cap`, the bytes past it follow from O32, and that `OUT` is not read is `with_buffers`. -/
theorem writesStayInsideTheCapacity : Obligations.WritesStayInsideTheCapacity := by
  intro s t hI h
  have hm := (blockStep_iff s t).1 h
  have hinp : t.inp = s.inp := hm.keeps.1
  refine ⟨fun a v => hI.store_lt_cap, fun a ha => ?_, fun hc => ?_, hinp, fun m => ?_⟩
  · rw [aStepWritesExactlyItsPort s t hI.outWf h a]
    split
    · rfl
    · split
      · rfl
      · have := hI.store_lt_cap ‹_›
        exact if_neg (by omega)
  · rw [hm.out_eq, State.storeInto_of_none (hI.outAccess_of_cap_zero hc)]
  · refine ⟨{ t with inp := s.inp, out := s.storeInto m }, ?_, ?_⟩
    · exact (blockStep_iff _ _).2 (hm.with_buffers (fun _ _ => rfl) m)
    · rw [← hinp]

/-! ## The host (R61, R177, R182) -/

theorem State.hostOwns_iff (s : State) : s.hostOwns = true ↔ s.busy = false := by simp [State.hostOwns]

/-- A change of the host leaves the registers (R170). -/
theorem HostChange.sameRegs (h : HostChange s t) : s.sameRegs t := by
  cases h <;> exact ⟨rfl, rfl, rfl, rfl, rfl, rfl, rfl, rfl, rfl, rfl, rfl, rfl⟩

/-- A change of the host leaves both buffers of a busy block (R61). -/
theorem HostChange.buffers_of_busy (h : HostChange s t) (b : s.busy = true) : t.inp = s.inp ∧ t.out = s.out := by
  have notOwned : ¬ s.hostOwns = true := by simp [s.hostOwns_iff, b]
  cases h with
  | outside pt hs => exact ⟨rfl, rfl⟩
  | load own => exact absurd own notOwned
  | store own => exact absurd own notOwned

theorem whileWaiting_drives {levels : Ports} {rest : List HostMove} (hd : s.host.script = .drive levels :: rest)
    (h : whileWaiting s = .next t) : t.ports = levels ∧ t.host.script = rest := by
  simp only [whileWaiting, hd, HostMove.plain, hostMove, if_true] at h
  cases h
  exact ⟨rfl, rfl⟩

/-- The levels the host drives stand after its turn, also where a sequence ends in the turn or waits on (R182 (c)). -/
theorem hostTurn_drives {levels : Ports} {rest : List HostMove} (hd : s.host.script = .drive levels :: rest)
    (h : hostTurn s = .next t) : t.ports = levels ∧ t.host.script = rest := by
  obtain ⟨hports, hscript⟩ := driveNext_drives hd
  unfold hostTurn at h
  split at h
  · rw [hd] at h
    cases h
    exact ⟨rfl, rfl⟩
  · split at h
    · exact whileWaiting_drives (s := s.lowerStart) hd h
    · split at h
      · obtain ⟨hs, rfl, hk⟩ := finishCompress_cases h
        exact ⟨hports, hk.trans hscript⟩
      · exact whileWaiting_drives hd h
  · split at h
    · exact whileWaiting_drives (s := s.lowerStart) hd h
    · split at h
      · obtain ⟨hs, rfl, hk⟩ := finishDecompress_cases h
        exact ⟨hports, hk.trans hscript⟩
      · exact whileWaiting_drives hd h

/-- With no sequence waiting the turn is the next move of the script. -/
theorem hostTurn_idle {m : HostMove} {rest : List HostMove} (hp : s.host.phase = .idle) (hsc : s.host.script = m :: rest) :
    hostTurn s = hostMove m rest s := by
  simp only [hostTurn, hp, hsc]

/-- Settles O34: what a turn leaves is `HostChange`, the ports are `hostTurn_drives`, and a write is the next move made. -/
theorem hostLeavesABusyBlockAlone : Obligations.HostLeavesABusyBlockAlone := by
  intro s t h
  have hc := hostTurn_change h
  refine ⟨hc.sameRegs, hc.buffers_of_busy, fun levels rest hd => hostTurn_drives hd h, ?_, ?_⟩
  · intro a v rest b hp hsc
    rw [hostTurn_idle hp hsc, hostMove, if_pos (s.hostOwns_iff.2 b)] at h
    cases h
    exact ⟨rfl, rfl⟩
  · intro a v rest b hp hsc
    rw [hostTurn_idle hp hsc, hostMove, if_pos (s.hostOwns_iff.2 b)] at h
    cases h
    exact ⟨rfl, rfl⟩

theorem State.hostFree_eq_false_iff (s : State) : s.hostFree = false ↔ s.busy = true ∨ s.host.phase ≠ .idle := by
  cases b : s.busy <;> simp [State.hostFree, State.hostOwns, b]

theorem execCompress_refuses_buffers_iff (p q : Path) (s : State) :
    execCompress p q s = .refused .buffersNotOwned ↔ s.hostFree = false := by
  cases hf : s.hostFree with
  | false => simp [execCompress, hf]
  | true =>
    simp only [execCompress, hf, Bool.not_true, Bool.false_eq_true, if_false]
    split_ifs <;> simp

theorem execDecompress_refuses_buffers_iff (p q : Path) (s : State) :
    execDecompress p q s = .refused .buffersNotOwned ↔ s.hostFree = false := by
  cases hf : s.hostFree with
  | false => simp [execDecompress, hf]
  | true =>
    simp only [execDecompress, hf, Bool.not_true, Bool.false_eq_true, if_false]
    split_ifs <;> simp

/-- Settles O54: a sequence is refused for want of the buffers where the host is not free to begin one, and only there. -/
theorem hostSequencesNeedTheBuffers : Obligations.HostSequencesNeedTheBuffers := by
  intro s p q
  rw [← s.hostFree_eq_false_iff]
  exact ⟨(execCompress_refuses_buffers_iff p q s).symm, (execDecompress_refuses_buffers_iff p q s).symm⟩

end Sys2Proof.Machine

/-! The decoder against the encoder (30_encoding.md), and what the block does with what it decodes. -/

namespace Sys2Proof

/-! ## The codes of the micro-operations (R77, R78) -/

theorem exists_code_of_ustep {i : Instr} (hf : i.format = .ustep) : ∃ code, decodeUstep code = .ok i := by
  cases i with
  | encode n c | decode n c | compress p q | decompress p q => cases hf
  | idleWait => exact ⟨0, rfl⟩
  | encFetch => exact ⟨1, rfl⟩
  | encCount => exact ⟨2, rfl⟩
  | encEmitV => exact ⟨3, rfl⟩
  | encEmitC => exact ⟨4, rfl⟩
  | decReadV => exact ⟨5, rfl⟩
  | decReadC => exact ⟨6, rfl⟩
  | decCheck => exact ⟨7, rfl⟩
  | decExpand => exact ⟨8, rfl⟩
  | doneHold => exact ⟨9, rfl⟩

theorem decodeUstep_reserved {code : BitVec 4} (h : 10 ≤ code.toNat) : decodeUstep code = .error (.reservedState code) := by
  unfold decodeUstep
  split
  case h_11 => rfl
  all_goals omega

/-- A code that selects a micro-operation is its encoding, as one byte. -/
theorem encode_of_decodeUstep {code : BitVec 4} {i : Instr} (h : decodeUstep code = .ok i) :
    i.format = .ustep ∧ encode i = some [code.setWidth 8] := by
  obtain ⟨n, hn⟩ := code
  interval_cases n <;> cases h <;> exact ⟨rfl, rfl⟩

/-! ## The command word (R75, R76) -/

theorem decodeCmd_cmdWord (op : BitVec 1) (n c : Word) :
    decodeCmd (cmdWord op n c) = if op = 0 then .encode n c else .decode n c := by simp [decodeCmd]

/-- A word is made of its three fields: it has no bit outside them. -/
theorem cmdWord_fields (w : BitVec 129) :
    cmdWord (w.extractLsb' 0 1) (w.extractLsb' 1 64) (w.extractLsb' 65 64) = w := by
  unfold cmdWord
  rw [BitVec.extractLsb'_append_extractLsb'_eq_extractLsb' (by rfl),
    BitVec.extractLsb'_append_extractLsb'_eq_extractLsb' (by rfl)]
  exact BitVec.extractLsb'_eq_self

theorem exists_word_of_cmd {i : Instr} (hf : i.format = .cmd) : ∃ w, decodeCmd w = i := by
  cases i with
  | encode n c => exact ⟨cmdWord 0 n c, decodeCmd_cmdWord 0 n c⟩
  | decode n c => exact ⟨cmdWord 1 n c, decodeCmd_cmdWord 1 n c⟩
  | _ => cases hf

/-- The encoding of the command of a word holds that word. -/
theorem encode_decodeCmd (w : BitVec 129) :
    (decodeCmd w).format = .cmd ∧ encode (decodeCmd w) = some (leBytes (Format.bytes .cmd) w.toNat) := by
  rw [← cmdWord_fields w, decodeCmd_cmdWord]
  rcases BitVec.eq_zero_or_eq_one (w.extractLsb' 0 1) with hop | hop <;> rw [hop] <;> exact ⟨rfl, rfl⟩

/-! ## The byte framing (log entry 10) -/

/-- The byte of a code holds the code. -/
theorem setWidth_byte (code : BitVec 4) : (code.setWidth 8).setWidth 4 = code := by
  rw [BitVec.setWidth_setWidth_of_le code (by decide), BitVec.setWidth_eq]

theorem decode_ustep_iff {bs rest : List Byte} {i : Instr} :
    decode .ustep bs = .ok (i, rest) ↔ ∃ code, decodeUstep code = .ok i ∧ bs = code.setWidth 8 :: rest := by
  constructor
  · intro h
    cases bs with
    | nil => cases h
    | cons b bs =>
      simp only [decode] at h
      split_ifs at h with hb
      split at h
      next j hcode =>
        cases h
        have hbyte : (BitVec.ofNat 4 b.toNat).setWidth 8 = b := by
          apply BitVec.eq_of_toNat_eq
          rw [BitVec.toNat_setWidth, BitVec.toNat_ofNat]
          omega
        exact ⟨_, hcode, by rw [hbyte]⟩
      · cases h
  · rintro ⟨code, hcode, rfl⟩
    have hlt : (code.setWidth 8).toNat < 16 := by
      rw [BitVec.toNat_setWidth]
      omega
    have hback : BitVec.ofNat 4 (code.setWidth 8).toNat = code := by
      rw [BitVec.ofNat_toNat, setWidth_byte]
    simp only [decode, hlt, if_true, hback, hcode]

theorem decode_cmd_iff {bs rest : List Byte} {i : Instr} :
    decode .cmd bs = .ok (i, rest) ↔
      ∃ w, decodeCmd w = i ∧ bs = leBytes (Format.bytes .cmd) w.toNat ++ rest := by
  constructor
  · intro h
    simp only [decode] at h
    split_ifs at h with hlen hv
    cases h
    have take_length : (bs.take (Format.bytes .cmd)).length = Format.bytes .cmd :=
      List.length_take_of_le (Nat.le_of_not_lt hlen)
    refine ⟨_, rfl, ?_⟩
    rw [BitVec.toNat_ofNat, Nat.mod_eq_of_lt hv]
    have bytes_eq := leBytes_leValue (bs.take (Format.bytes .cmd))
    rw [take_length] at bytes_eq
    rw [bytes_eq, List.take_append_drop]
  · rintro ⟨w, rfl, rfl⟩
    have hlen : (leBytes (Format.bytes .cmd) w.toNat).length = Format.bytes .cmd := length_leBytes _ _
    have hval : leValue (leBytes (Format.bytes .cmd) w.toNat) = w.toNat := by
      rw [leValue_leBytes, Nat.mod_eq_of_lt (w.isLt.trans (by decide))]
    simp [decode, List.take_left' hlen, List.drop_left' hlen, hval, w.isLt]

/-! ## The two directions together -/

theorem encode_eq_none_iff {i : Instr} : encode i = none ↔ i.format = .pseudo := by
  cases i <;> simp [encode, Instr.format]

theorem length_of_encode (i : Instr) : Laws.EncodedLength.Statement i :=
  match i with
  | .encode n c => Laws.EncodedLength.encode n c
  | .decode n c => Laws.EncodedLength.decode n c
  | .idleWait => Laws.EncodedLength.idleWait
  | .encFetch => Laws.EncodedLength.encFetch
  | .encCount => Laws.EncodedLength.encCount
  | .encEmitV => Laws.EncodedLength.encEmitV
  | .encEmitC => Laws.EncodedLength.encEmitC
  | .decReadV => Laws.EncodedLength.decReadV
  | .decReadC => Laws.EncodedLength.decReadC
  | .decCheck => Laws.EncodedLength.decCheck
  | .decExpand => Laws.EncodedLength.decExpand
  | .doneHold => Laws.EncodedLength.doneHold
  | .compress p q => Laws.EncodedLength.compress p q
  | .decompress p q => Laws.EncodedLength.decompress p q

/-- Decoding inverts encoding and nothing else decodes (R75, R77, R82): in each format, what decodes to an operation of the
format is its encoding, followed by the rest. -/
theorem decode_iff {f : Format} {bs rest : List Byte} {i : Instr} :
    decode f bs = .ok (i, rest) ↔ i.format = f ∧ ∃ ws, encode i = some ws ∧ bs = ws ++ rest := by
  cases f with
  | cmd =>
    rw [decode_cmd_iff]
    constructor
    · rintro ⟨w, rfl, hbs⟩
      obtain ⟨hf, henc⟩ := encode_decodeCmd w
      exact ⟨hf, _, henc, hbs⟩
    · rintro ⟨hf, ws, henc, hbs⟩
      obtain ⟨w, rfl⟩ := exists_word_of_cmd hf
      obtain rfl := Option.some.inj (henc.symm.trans (encode_decodeCmd w).2)
      exact ⟨w, rfl, hbs⟩
  | ustep =>
    rw [decode_ustep_iff]
    constructor
    · rintro ⟨code, hcode, hbs⟩
      obtain ⟨hf, henc⟩ := encode_of_decodeUstep hcode
      exact ⟨hf, _, henc, hbs⟩
    · rintro ⟨hf, ws, henc, hbs⟩
      obtain ⟨code, hcode⟩ := exists_code_of_ustep hf
      obtain rfl := Option.some.inj (henc.symm.trans (encode_of_decodeUstep hcode).2)
      exact ⟨code, hcode, hbs⟩
  | pseudo =>
    constructor
    · intro h
      cases h
    · rintro ⟨hf, ws, henc, -⟩
      simp [encode_eq_none_iff.2 hf] at henc

/-- Settles O6: an operation with an encoding is read back from it by `decode_iff`; only a pseudo-operation has none. -/
theorem decodeOfEncodeIsTheOperation : Obligations.DecodeOfEncodeIsTheOperation := by
  intro i _
  refine ⟨fun hf => ?_, fun hf => ⟨encode_eq_none_iff.2 hf, fun bs => by rw [hf, decode]⟩⟩
  obtain ⟨ws, henc⟩ := Option.ne_none_iff_exists'.1 (mt encode_eq_none_iff.1 hf)
  exact ⟨ws, henc, length_of_encode i ws henc, fun rest => decode_iff.2 ⟨rfl, ws, henc, rfl⟩⟩

/-- Settles O7: the first direction of `decode_iff`. -/
theorem decodedBytesAreTheEncoding : Obligations.DecodedBytesAreTheEncoding :=
  fun _ _ _ _ h => decode_iff.1 h

/-- Settles O5: the decoder evaluates on each of the four words. -/
theorem specWordsDecode : Obligations.SpecWordsDecode := by
  unfold Obligations.SpecWordsDecode
  decide

end Sys2Proof

namespace Sys2Proof.Machine

theorem Fsm.code_lt (f : Fsm) : f.code.toNat < 10 := by cases f <;> decide

/-- Settles O4: the table row by row; a code from 10 on is refused and is above the code of every state. -/
theorem codesSelectTheMicroOperations : Obligations.CodesSelectTheMicroOperations := by
  refine ⟨⟨rfl, rfl⟩, ⟨rfl, rfl⟩, ⟨rfl, rfl⟩, ⟨rfl, rfl⟩, ⟨rfl, rfl⟩, ⟨rfl, rfl⟩, ⟨rfl, rfl⟩, ⟨rfl, rfl⟩, ⟨rfl, rfl⟩,
    ⟨rfl, rfl⟩, fun code hcode => ⟨decodeUstep_reserved hcode, fun f hf => ?_⟩, fun s u hfsm => ?_⟩
  · subst hf
    exact absurd f.code_lt (Nat.not_lt.2 hcode)
  · rw [State.fetch, State.fetch, hfsm]

theorem State.fetch_of_decode {s : State} {i : Instr} (h : decode .ustep [s.fsm.code.setWidth 8] = .ok (i, [])) :
    s.fetch = .ok i := by
  obtain ⟨code, hcode, hbyte⟩ := decode_ustep_iff.1 h
  have hc : s.fsm.code = code := by
    rw [← setWidth_byte s.fsm.code, (List.cons.inj hbyte).1, setWidth_byte]
  rw [State.fetch, hc, hcode]

theorem blockStep_of_fetch {s : State} {i : Instr} (r : s.ports.rst = false) (h : s.fetch = .ok i) :
    blockStep s = exec i s := by
  simp [blockStep, r, h]

/-- Settles O3: the fetched operation is the decoded one, and `step` matches on what the block answers. -/
theorem stepRunsTheSelectedMicroOperation : Obligations.StepRunsTheSelectedMicroOperation := by
  intro s
  refine ⟨fun i r h => ?_, fun r => ?_⟩
  · have hblock := blockStep_of_fetch r (State.fetch_of_decode h)
    refine ⟨hblock, ?_⟩
    cases hexec : exec i s <;> simp only [step, hblock, hexec]
  · have hreset : blockStep s = .next s.resetRegs := (blockStep_iff _ _).2 (.reset r)
    simp only [step, hreset]

/-- A block that is not busy accepts a command (R91, R92). -/
theorem giveCommand_of_not_busy {s : State} (b : s.busy = false) (op : BitVec 1) (n c : Word) :
    giveCommand op n c s = .next (s.accept op n c) :=
  if_neg (by simp [b])

/-- `exec` of the command a word decodes to gives the fields of the word to the block (R93, R94). -/
theorem exec_decodeCmd (op : BitVec 1) (n c : Word) (s : State) :
    exec (decodeCmd (cmdWord op n c)) s = giveCommand op n c s := by
  rw [decodeCmd_cmdWord]
  rcases BitVec.eq_zero_or_eq_one op with rfl | rfl <;> rfl

theorem waitForStart_of_start {s : State} (w : s.ports.start = true) :
    waitForStart s = .next (s.accept s.ports.op s.ports.inLen s.ports.outCap) :=
  if_pos w

/-- Settles O11: a command in either form is the accepting step, which is also what the waiting states run. -/
theorem commandsAreAccepted : Obligations.CommandsAreAccepted := by
  intro s b
  refine ⟨fun n c => ⟨giveCommand_of_not_busy b 0 n c, giveCommand_of_not_busy b 1 n c⟩, fun w => ?_⟩
  rw [exec_decodeCmd, giveCommand_of_not_busy b]
  exact ⟨(waitForStart_of_start w).symm, (waitForStart_of_start w).symm⟩

end Sys2Proof.Machine

/-! The sequencer (40_sequencer.md): which states follow which (R95), the waiting block (R91, R92, R97), the busy block (R96), and
that the result of an operation is a function of its command and its input (R99). -/

namespace Sys2Proof.Machine

variable {s t u : State}

/-! ## The successors of a sequencer state (R95) -/

/-- The states that R95 lets follow a sequencer state in a step with `rst = 0`. -/
def Fsm.successors : Fsm → List Fsm
  | .idle => [.idle, .encFetch, .decReadV]
  | .encFetch => [.done, .encCount]
  | .encCount => [.encCount, .encEmitV]
  | .encEmitV => [.done, .encEmitC]
  | .encEmitC => [.encFetch]
  | .decReadV => [.done, .decReadC]
  | .decReadC => [.decCheck]
  | .decCheck => [.done, .decExpand]
  | .decExpand => [.decReadV, .decExpand]
  | .done => [.done, .encFetch, .decReadV]

/-- The datapath that the accepting step enters. -/
theorem State.accept_fsm_mem (s : State) (op : BitVec 1) (n c : Word) : (s.accept op n c).fsm ∈ [Fsm.encFetch, .decReadV] := by
  rcases BitVec.eq_zero_or_eq_one op with rfl | rfl <;> simp

theorem BlockMove.fsm_mem_successors (h : BlockMove s t) (r : s.ports.rst = false) : t.fsm ∈ s.fsm.successors := by
  cases h with
  | reset r' => exact absurd (r'.symm.trans r) (by decide)
  | hold r f w => rcases f with f | f <;> simp [f, Fsm.successors]
  | accept r f w => rcases f with f | f <;> (rw [f]; exact List.mem_cons_of_mem _ (s.accept_fsm_mem _ _ _))
  | _ r f => simp [f, Fsm.successors]

/-- `IDLE` follows no other state. -/
theorem Fsm.eq_idle_of_idle_mem_successors {f : Fsm} (h : .idle ∈ f.successors) : f = .idle := by
  cases f <;> simp [Fsm.successors] at h ⊢

/-- Settles O13: row by row, each condition over the naturals by the lemma about its operands. -/
theorem transitionsAreTheTable : Obligations.TransitionsAreTheTable := by
  intro s t hI h
  have hscan := hI.scan
  have hwrite := hI.write
  cases (blockStep_iff s t).1 h with
  | reset r => exact ⟨fun _ => rfl, by simp [r]⟩
  | hold r f w => rcases f with f | f <;> simp [r, f, w]
  | accept r f w => rcases f with f | f <;> simp [r, f, w]
  | inputEnd r f e => simp [r, f, e]
  | fetch r f e => simp [r, f, BitVec.toNat_inj, e]
  | count r f g =>
    obtain ⟨-, -, hrun, -⟩ := hI.encCount f
    simp [r, f, (runGoesOn_iff s hrun).1 g]
  | closeRun r f g =>
    obtain ⟨-, -, hrun, -⟩ := hI.encCount f
    have hstop := mt (runGoesOn_iff s hrun).2 (by simp [g])
    simp only [r, f, if_neg hstop]
    simp
  | raiseEnc r f n =>
    rw [noRoomForPair_iff s hwrite] at n
    simp [r, f, show s.cap.toNat < s.wpos.toNat + 2 by omega]
  | emitValue r f n =>
    rw [← Bool.not_eq_true, noRoomForPair_iff s hwrite] at n
    simp [r, f, show ¬ s.cap.toNat < s.wpos.toNat + 2 by omega]
  | emitCount r f => simp [r, f]
  | payloadEnd r f n =>
    rw [noPairLeft_iff s hscan] at n
    simp [r, f, show s.len.toNat < s.rpos.toNat + 2 by omega]
  | readValue r f n =>
    rw [← Bool.not_eq_true, noPairLeft_iff s hscan] at n
    simp [r, f, show ¬ s.len.toNat < s.rpos.toNat + 2 by omega]
  | readCount r f => simp [r, f]
  | raiseDec r f n =>
    rw [noRoomForRun_iff s hwrite] at n
    simp [r, f, show s.cap.toNat < s.wpos.toNat + s.pairCnt.toNat by omega]
  | consume r f n =>
    rw [← Bool.not_eq_true, noRoomForRun_iff s hwrite] at n
    simp [r, f, show ¬ s.cap.toNat < s.wpos.toNat + s.pairCnt.toNat by omega]
  | runDone r f z => simp [r, f, z]
  | copy r f z =>
    have hz : s.expRem.toNat ≠ 0 := fun e => z (BitVec.eq_of_toNat_eq e)
    simp [r, f, hz]

/-! ## The busy block (R90, R96) -/

/-- Each move of a busy block changes `fsm`, the count of a run, or the write position. -/
theorem BlockMove.ne_of_busy (h : BlockMove s t) (b : s.busy = true) : t ≠ s := by
  intro e
  have hfsm : t.fsm = s.fsm := congrArg State.fsm e
  have hcnt : t.runCnt = s.runCnt := congrArg State.runCnt e
  have hpos : t.wpos = s.wpos := congrArg State.wpos e
  cases h with
  | reset r =>
    rw [State.resetRegs_fsm] at hfsm
    simp [State.busy_iff, ← hfsm] at b
  | hold r f w => simp [s.busy_eq_false_iff.2 f] at b
  | accept r f w => simp [s.busy_eq_false_iff.2 f] at b
  | count r f g => simp at hcnt
  | copy r f z => simp at hpos
  | _ r f => simp [f] at hfsm

/-- Settles O8: the step is one of the moves; with `rst` low it is `exec` of what is fetched. -/
theorem everyBlockStepHasANextState : Obligations.EveryBlockStepHasANextState := by
  intro s
  obtain ⟨t, ht, hmove⟩ := blockStep_move s
  refine ⟨t, ht, fun r => hmove.unique (.reset r), fun r => ?_, hmove.ne_of_busy⟩
  obtain ⟨i, hi⟩ : ∃ i, s.fetch = .ok i := ⟨_, s.fetch_eq⟩
  exact ⟨i, hi, (blockStep_of_fetch r hi).symm.trans ht⟩

/-- A busy block makes the same move whatever the levels of the command ports are. -/
theorem BlockMove.with_ports (h : BlockMove s t) (b : s.busy = true) (r : s.ports.rst = false) {p : Ports}
    (rp : p.rst = false) : BlockMove { s with ports := p } { t with ports := p } := by
  cases h with
  | reset r' => exact absurd (r'.symm.trans r) (by decide)
  | hold r f w => simp [s.busy_eq_false_iff.2 f] at b
  | accept r f w => simp [s.busy_eq_false_iff.2 f] at b
  | inputEnd r f e => exact .inputEnd rp f e
  | fetch r f e => exact .fetch rp f e
  | count r f g => exact .count rp f g
  | closeRun r f g => exact .closeRun rp f g
  | raiseEnc r f n => exact .raiseEnc rp f n
  | emitValue r f n => exact .emitValue rp f n
  | emitCount r f => exact .emitCount rp f
  | payloadEnd r f n => exact .payloadEnd rp f n
  | readValue r f n => exact .readValue rp f n
  | readCount r f => exact .readCount rp f
  | raiseDec r f n => exact .raiseDec rp f n
  | consume r f n => exact .consume rp f n
  | runDone r f z => exact .runDone rp f z
  | copy r f z => exact .copy rp f z

/-- A command given to a busy block is lost (R96). -/
theorem giveCommand_of_busy (b : s.busy = true) (op : BitVec 1) (n c : Word) : giveCommand op n c s = .next s :=
  if_pos b

/-- No state of the decoder follows one of the encoder. -/
theorem Fsm.successors_encoder : ∀ f ∈ [Fsm.encFetch, .encCount, .encEmitV, .encEmitC], ∀ g ∈ f.successors,
    g ∉ [Fsm.decReadV, .decReadC, .decCheck, .decExpand] := by
  decide

/-- No state of the encoder follows one of the decoder. -/
theorem Fsm.successors_decoder : ∀ f ∈ [Fsm.decReadV, .decReadC, .decCheck, .decExpand], ∀ g ∈ f.successors,
    g ∉ [Fsm.encFetch, .encCount, .encEmitV, .encEmitC] := by
  decide

/-- Settles O12: the move is the same with other ports, and the two datapaths are apart in the successors of R95. -/
theorem busyBlockIgnoresTheCommandPorts : Obligations.BusyBlockIgnoresTheCommandPorts := by
  intro s t p b r rp h
  have hmove := (blockStep_iff s t).1 h
  have hsucc := hmove.fsm_mem_successors r
  exact ⟨(blockStep_iff _ _).2 (hmove.with_ports b r rp), fun n c => ⟨giveCommand_of_busy b 0 n c, giveCommand_of_busy b 1 n c⟩,
    fun henc => Fsm.successors_encoder s.fsm henc t.fsm hsucc, fun hdec => Fsm.successors_decoder s.fsm hdec t.fsm hsucc⟩

/-! ## The waiting block (R91, R92, R97) -/

theorem waitForStart_of_not_start (w : s.ports.start = false) : waitForStart s = .next s :=
  if_neg (by simp [w])

/-- A waiting block makes no access to a buffer. -/
theorem State.no_access_of_not_busy (b : s.busy = false) : s.inAccess = none ∧ s.outAccess = none := by
  rcases s.busy_eq_false_iff.1 b with f | f <;> simp [State.inAccess, State.outAccess, f]

/-- Settles O9: the two outcomes of the pseudocode that R91 and R92 share. -/
theorem idleWaitResult : Obligations.IdleWaitResult :=
  ⟨rfl, fun s => ⟨waitForStart_of_start, waitForStart_of_not_start,
    fun f => State.no_access_of_not_busy (s.busy_eq_false_iff.2 (.inl f))⟩⟩

/-- Settles O10: as `IDLE_WAIT`; with `rst` low `IDLE` follows no other state. -/
theorem doneHoldResult : Obligations.DoneHoldResult := by
  refine ⟨rfl, fun s => ⟨waitForStart_of_start, waitForStart_of_not_start,
    fun f => State.no_access_of_not_busy (s.busy_eq_false_iff.2 (.inr f)), fun t f h fi => ?_⟩⟩
  by_contra hr
  have hsucc := ((blockStep_iff s t).1 h).fsm_mem_successors (Bool.eq_false_iff.2 hr)
  rw [fi] at hsucc
  exact absurd (f.symm.trans (Fsm.eq_idle_of_idle_mem_successors hsucc)) (by decide)

/-- Settles O15: every step is the row `hold`. -/
theorem waitingBlockHoldsItsResult : Obligations.WaitingBlockHoldsItsResult := by
  intro k s b w r
  have hstep : blockStep s = .next s := (blockStep_iff s s).2 (.hold r (s.busy_eq_false_iff.1 b) w)
  induction k with
  | zero => rfl
  | succ k ih => simp only [blockRun, hstep, ih]

/-- A command, and a waiting micro-operation, leaves the state as it is or is the accepting step. -/
theorem exec_command_cases {n c : Word} {i : Instr} (hi : i ∈ [.encode n c, .decode n c, .idleWait, .doneHold])
    (h : exec i s = .next t) : t = s ∨ ∃ op inLen outCap, t = s.accept op inLen outCap := by
  have give : ∀ op, giveCommand op n c s = .next t → t = s ∨ ∃ op inLen outCap, t = s.accept op inLen outCap := by
    intro op h
    cases b : s.busy with
    | true => exact .inl (Host.Outcome.next.inj (h.symm.trans (giveCommand_of_busy b op n c)))
    | false => exact .inr ⟨op, n, c, Host.Outcome.next.inj (h.symm.trans (giveCommand_of_not_busy b op n c))⟩
  have wait : waitForStart s = .next t → t = s ∨ ∃ op inLen outCap, t = s.accept op inLen outCap := by
    intro h
    cases w : s.ports.start with
    | true => exact .inr ⟨_, _, _, Host.Outcome.next.inj (h.symm.trans (waitForStart_of_start w))⟩
    | false => exact .inl (Host.Outcome.next.inj (h.symm.trans (waitForStart_of_not_start w)))
  simp only [List.mem_cons, List.not_mem_nil, or_false] at hi
  rcases hi with rfl | rfl | rfl | rfl
  · exact give 0 h
  · exact give 1 h
  · exact wait h
  · exact wait h

/-- Settles O24: the accepting step keeps each of these fields. -/
theorem commandsFrame : Obligations.CommandsFrame := by
  intro s t n c i hi h
  obtain rfl | ⟨op, inLen, outCap, rfl⟩ := exec_command_cases hi h
  · exact ⟨rfl, rfl, rfl, rfl, rfl, fun _ => ⟨rfl, rfl⟩, rfl, rfl⟩
  · exact ⟨rfl, rfl, rfl, rfl, rfl, fun _ => ⟨rfl, rfl⟩, rfl, rfl⟩

end Sys2Proof.Machine

/-! The whole operation (R97, R99): from every state of an operation the block reaches `DONE`, and states that agree on what the
operation still depends on make the same moves. -/

namespace Sys2Proof.Machine

variable {s t u : State}

/-! ## Every operation ends (R97) -/

theorem State.endsIn_zero (f : s.fsm = .done) : s.endsIn 0 s := ⟨rfl, f, by intro j u hj; omega⟩

/-- A move from a state that is not `DONE` is one more step before the end. -/
theorem BlockMove.endsIn (h : BlockMove s t) (hn : s.fsm ≠ .done) {k : Nat} (hend : t.endsIn k u) : s.endsIn (k + 1) u := by
  obtain ⟨hrun, hdone, hbefore⟩ := hend
  obtain ⟨hrun', hbefore'⟩ := h.runsTo hn ⟨hrun, hbefore⟩
  exact ⟨hrun', hdone, hbefore'⟩

/-- An end that is not reached yet is the end from the next state, one step nearer. -/
theorem State.endsIn_succ {k : Nat} (h : s.endsIn (k + 1) u) : s.fsm ≠ .done ∧ ∃ t, BlockMove s t ∧ t.endsIn k u := by
  obtain ⟨hrun, hdone, hbefore⟩ := h
  obtain ⟨t, ht, hmove⟩ := blockStep_move s
  have hstep : ∀ j, blockRun (j + 1) s = blockRun j t := fun j => by simp only [blockRun, ht]
  refine ⟨hbefore 0 s (Nat.succ_pos k) rfl, t, hmove, (hstep k).symm.trans hrun, hdone, fun j v hj hv => ?_⟩
  exact hbefore (j + 1) v (Nat.succ_lt_succ hj) ((hstep j).trans hv)

/-- A bound on the steps that are left: at most four for each byte of an encoder's input, and 260 for each byte of a payload (the
steps of one Pair are at most 259). -/
def State.stepsLeft (s : State) : Nat :=
  match s.fsm with
  | .idle => 0
  | .encFetch => 4 * (s.len.toNat - s.rpos.toNat) + 1
  | .encCount => 4 * (s.len.toNat - s.rpos.toNat) + 1 - s.runCnt.toNat
  | .encEmitV => 4 * (s.len.toNat - s.rpos.toNat) - s.runCnt.toNat
  | .encEmitC => 4 * (s.len.toNat - s.rpos.toNat) - 1 - s.runCnt.toNat
  | .decReadV => 260 * (s.len.toNat - s.rpos.toNat) + 1
  | .decReadC => 260 * (s.len.toNat - s.rpos.toNat)
  | .decCheck => 260 * (s.len.toNat - s.rpos.toNat) - 1
  | .decExpand => 260 * (s.len.toNat - s.rpos.toNat) + 2 + s.expRem.toNat
  | .done => 0

/-- Each step of a busy block lowers the bound. -/
theorem BlockMove.stepsLeft_lt (h : BlockMove s t) (hI : s.Inv) (r : s.ports.rst = false) (b : s.busy = true) :
    t.stepsLeft < s.stepsLeft := by
  cases h with
  | reset r' => exact absurd (r'.symm.trans r) (by decide)
  | hold r f w => simp [s.busy_eq_false_iff.2 f] at b
  | accept r f w => simp [s.busy_eq_false_iff.2 f] at b
  | inputEnd r f e => simp [State.stepsLeft, f]
  | fetch r f e => simp [State.stepsLeft, f]
  | count r f g =>
    obtain ⟨-, -, hrun, -⟩ := hI.encCount f
    obtain ⟨hmax, hin, -⟩ := (runGoesOn_iff s hrun).1 g
    have hc : (s.runCnt + 1).toNat = s.runCnt.toNat + 1 := BitVec.toNat_add_of_lt (Nat.succ_lt_succ hmax)
    simp only [State.stepsLeft, f, hc]
    omega
  | closeRun r f g =>
    obtain ⟨-, hpos, hrun, -⟩ := hI.encCount f
    simp only [State.stepsLeft, f, State.goto_fsm, State.goto_len, State.goto_rpos, State.goto_runCnt]
    omega
  | raiseEnc r f n =>
    obtain ⟨-, hpos, hrun, -⟩ := hI.encEmitV f
    simp only [State.stepsLeft, f, State.raiseCapacityExceeded_fsm]
    omega
  | emitValue r f n =>
    obtain ⟨-, hpos, hrun, -⟩ := hI.encEmitV f
    simp only [State.stepsLeft, f, State.goto_fsm, State.goto_len, State.goto_rpos, State.goto_runCnt, State.writeOut_len,
      State.writeOut_rpos, State.writeOut_runCnt]
    omega
  | emitCount r f =>
    obtain ⟨-, ⟨hpos, hrun, -⟩, -⟩ := hI.encEmitC f
    simp only [State.stepsLeft, f, runEnd_toNat s hrun, State.writeOut_len]
    omega
  | payloadEnd r f n => simp [State.stepsLeft, f]
  | readValue r f n => simp [State.stepsLeft, f]
  | readCount r f =>
    obtain ⟨-, hpair, -⟩ := hI.decReadC f
    simp only [State.stepsLeft, f]
    omega
  | raiseDec r f n =>
    obtain ⟨-, ⟨hpair, -⟩, -⟩ := hI.decCheck f
    simp only [State.stepsLeft, f, State.raiseCapacityExceeded_fsm]
    omega
  | consume r f n =>
    obtain ⟨-, ⟨hpair, -⟩, -⟩ := hI.decCheck f
    have hr : (s.rpos + 2).toNat = s.rpos.toNat + 2 := word_add_toNat_of_le hpair
    have hcnt := s.pairCnt.isLt
    simp only [State.stepsLeft, f, hr]
    omega
  | runDone r f z => simp [State.stepsLeft, f, z]
  | copy r f z =>
    obtain ⟨-, hexp⟩ := hI.decExpand f
    obtain ⟨-, hleft, hpos⟩ := hexp.copy_toNat z
    simp only [State.stepsLeft, f, hleft, State.writeOut_fsm, State.writeOut_len, State.writeOut_rpos]
    omega

/-- From every state of an operation the block reaches `DONE`, with `rst` held low. -/
theorem State.Inv.exists_endsIn (hI : s.Inv) (r : s.ports.rst = false) (hn : s.fsm ≠ .idle) : ∃ k t, s.endsIn k t := by
  induction hm : s.stepsLeft using Nat.strong_induction_on generalizing s with
  | _ m ih =>
    subst hm
    by_cases hd : s.fsm = .done
    · exact ⟨0, s, State.endsIn_zero hd⟩
    · obtain ⟨t, -, hmove⟩ := blockStep_move s
      have hb : s.busy = true := by
        rw [← Bool.not_eq_false, s.busy_eq_false_iff]
        exact not_or.2 ⟨hn, hd⟩
      have hnt : t.fsm ≠ .idle := by
        intro e
        exact hn (Fsm.eq_idle_of_idle_mem_successors (e ▸ hmove.fsm_mem_successors r))
      obtain ⟨-, hports, -⟩ := hmove.keeps
      obtain ⟨k, v, hend⟩ := ih _ (hmove.stepsLeft_lt hI r hb) (hmove.keeps_inv hI) (hports ▸ r) hnt rfl
      exact ⟨k + 1, v, hmove.endsIn hd hend⟩

/-! ## What an operation depends on (R99) -/

/-- The state with 0 in every datapath register that its sequencer state does not read before writing it, and with a quiet host. -/
def State.forgetStale (s : State) : State :=
  { s with
    runVal := if s.fsm ∈ [Fsm.encCount, .encEmitV, .encEmitC] then s.runVal else 0
    runCnt := if s.fsm ∈ [Fsm.encCount, .encEmitV, .encEmitC] then s.runCnt else 0
    pairVal := if s.fsm ∈ [Fsm.decReadC, .decCheck, .decExpand] then s.pairVal else 0
    pairCnt := if s.fsm = .decCheck then s.pairCnt else 0
    expRem := if s.fsm = .decExpand then s.expRem else 0
    host := HostState.quiet }

/-- Without the stale registers the state makes the same move: in each row the registers its conditions and its next state read are
in use. -/
theorem BlockMove.forgetStale (h : BlockMove s t) : ∃ v, BlockMove s.forgetStale v ∧ v.forgetStale = t.forgetStale := by
  cases h with
  | reset r => exact ⟨_, .reset r, rfl⟩
  | hold r f w => exact ⟨_, .hold r f w, by rcases f with f | f <;> simp [State.forgetStale, f]⟩
  | accept r f w => exact ⟨_, .accept r f w, by
      rcases BitVec.eq_zero_or_eq_one s.ports.op with e | e <;> simp [State.forgetStale, State.accept, e]⟩
  | inputEnd r f e => exact ⟨_, .inputEnd r f e, rfl⟩
  | fetch r f e => exact ⟨_, .fetch r f e, rfl⟩
  | count r f g => cases s; cases f; exact ⟨_, .count r rfl g, rfl⟩
  | closeRun r f g => cases s; cases f; exact ⟨_, .closeRun r rfl g, rfl⟩
  | raiseEnc r f n => cases s; cases f; exact ⟨_, .raiseEnc r rfl n, rfl⟩
  | emitValue r f n => cases s; cases f; exact ⟨_, .emitValue r rfl n, rfl⟩
  | emitCount r f => cases s; cases f; exact ⟨_, .emitCount r rfl, rfl⟩
  | payloadEnd r f n => exact ⟨_, .payloadEnd r f n, rfl⟩
  | readValue r f n => exact ⟨_, .readValue r f n, rfl⟩
  | readCount r f => cases s; cases f; exact ⟨_, .readCount r rfl, rfl⟩
  | raiseDec r f n => cases s; cases f; exact ⟨_, .raiseDec r rfl n, rfl⟩
  | consume r f n => cases s; cases f; exact ⟨_, .consume r rfl n, rfl⟩
  | runDone r f z => cases s; cases f; exact ⟨_, .runDone r rfl z, rfl⟩
  | copy r f z => cases s; cases f; exact ⟨_, .copy r rfl z, rfl⟩

/-- With equal contents of the registers in use and of both buffers, the states make the same move. -/
theorem BlockMove.of_forgetStale_eq (h : BlockMove s t) (e : s.forgetStale = u.forgetStale) :
    ∃ v, BlockMove u v ∧ t.forgetStale = v.forgetStale := by
  obtain ⟨v, -, hv⟩ := blockStep_move u
  obtain ⟨t', ht', et⟩ := h.forgetStale
  obtain ⟨v', hv', ev⟩ := hv.forgetStale
  rw [← e] at hv'
  rw [← ht'.unique hv'] at ev
  exact ⟨v, hv, et.symm.trans ev⟩

/-- How many bytes of the result are in `OUT`: those below `wpos`, and in `ENC_EMIT_C` the value byte just stored (R114). -/
def State.produced (s : State) : Nat := s.wpos.toNat + if s.fsm = .encEmitC then 1 else 0

@[simp] theorem State.accept_produced (s : State) (op : BitVec 1) (n c : Word) : (s.accept op n c).produced = 0 := by
  rcases BitVec.eq_zero_or_eq_one op with rfl | rfl <;> simp [State.produced]

/-- A step from the state stores the byte of `OUT` at index `a`. -/
def State.StoresAt (s : State) (a : Nat) : Prop :=
  s.ports.rst = false ∧ ∃ addr v, s.outAccess = some (addr, v) ∧ addr.toNat = a

/-- A byte that a move adds to the result is the one it stores. -/
theorem BlockMove.lt_produced (h : BlockMove s t) (hI : s.Inv) {a : Nat} (ha : a < t.produced) :
    a < s.produced ∨ s.StoresAt a := by
  cases h with
  | reset r => exact absurd ha (Nat.not_lt_zero a)
  | accept r f w => simp at ha
  | hold r f w => exact .inl ha
  | count r f g => exact .inl ha
  | emitValue r f n =>
    have hnew : a < s.wpos.toNat + 1 := ha
    obtain hlt | rfl := Nat.lt_succ_iff_lt_or_eq.1 hnew
    · exact .inl (Nat.lt_of_lt_of_le hlt (Nat.le_add_right _ _))
    · exact .inr ⟨r, s.valueAddr, s.runVal, by simp [State.outAccess, f, n], rfl⟩
  | emitCount r f =>
    obtain ⟨-, -, hroom⟩ := hI.encEmitC f
    have hw : (s.wpos + 2).toNat = s.wpos.toNat + 2 := word_add_toNat_of_le hroom
    have hnew : a < s.wpos.toNat + 1 + 1 := Nat.lt_of_lt_of_eq ha hw
    obtain hlt | rfl := Nat.lt_succ_iff_lt_or_eq.1 hnew
    · exact .inl (by simpa [State.produced, f] using hlt)
    · exact .inr ⟨r, s.countAddr, s.runCnt, by simp [State.outAccess, f], countAddr_toNat s hroom⟩
  | copy r f z =>
    obtain ⟨-, hexp⟩ := hI.decExpand f
    obtain ⟨hw, -, -⟩ := hexp.copy_toNat z
    have hnew : a < s.wpos.toNat + 1 := by
      simpa only [State.produced, State.writeOut_fsm, f, hw, reduceCtorEq, if_false, Nat.add_zero] using ha
    obtain hlt | rfl := Nat.lt_succ_iff_lt_or_eq.1 hnew
    · exact .inl (Nat.lt_of_lt_of_le hlt (Nat.le_add_right _ _))
    · exact .inr ⟨r, s.valueAddr, s.pairVal, by simpa [State.outAccess, f] using z, rfl⟩
  | _ => exact .inl (Nat.lt_of_lt_of_le ha (Nat.le_add_right _ _))

/-- After the same store two spaces agree where they agreed before, and at the byte stored. -/
theorem State.read_storeInto_congr (s : State) {m m' : Memory} (hm : m.wf = true) (hm' : m'.wf = true) {a : Nat}
    (h : m.read .out a = m'.read .out a ∨ s.StoresAt a) :
    (s.storeInto m).read .out a = (s.storeInto m').read .out a := by
  cases r : s.ports.rst with
  | true => simpa [State.storeInto_of_rst r, State.StoresAt, r] using h
  | false =>
    cases o : s.outAccess with
    | none => simpa [State.storeInto_of_none o, State.StoresAt, o] using h
    | some access =>
      obtain ⟨addr, v⟩ := access
      rw [State.storeInto_of_some r o, State.storeInto_of_some r o, Memory.read_write _ _ _ _ hm, Memory.read_write _ _ _ _ hm']
      split
      · rfl
      · refine h.resolve_right ?_
        rintro ⟨-, addr', v', ho, rfl⟩
        cases o.symm.trans ho
        contradiction

/-- `u` may stand in for `s`: the registers in use and the ports are the same, `IN` agrees on the input of the operation and of the
command on the ports, and `OUT` on the bytes of the result. -/
structure State.Agrees (s u : State) : Prop where
  regs : State.forgetStale { s with inp := u.inp, out := u.out } = u.forgetStale
  input : ∀ a, a < s.len.toNat ∨ a < s.ports.inLen.toNat → u.inp.read .inp a = s.inp.read .inp a
  output : ∀ a, a < s.produced → u.out.read .out a = s.out.read .out a
  outWf : u.out.wf = true

theorem State.Agrees.fsm_eq (h : s.Agrees u) : u.fsm = s.fsm := (congrArg State.fsm h.regs).symm

theorem State.Agrees.wpos_eq (h : s.Agrees u) : u.wpos = s.wpos := (congrArg State.wpos h.regs).symm

theorem State.Agrees.capExceeded_eq (h : s.Agrees u) : u.capExceeded = s.capExceeded := (congrArg State.capExceeded h.regs).symm

theorem State.Agrees.result_eq (h : s.Agrees u) : u.result = s.result := by
  have hbytes : u.out.bytes .out s.wpos.toNat = s.out.bytes .out s.wpos.toNat :=
    Memory.bytes_congr .out _ _ _ fun a ha => h.output a (Nat.lt_of_lt_of_le ha (Nat.le_add_right _ _))
  simp only [State.result, State.written, h.wpos_eq, h.capExceeded_eq, hbytes]

/-- The length that a step leaves is the one before, 0, or that of the command on the ports. -/
theorem BlockMove.lt_len (h : BlockMove s t) {a : Nat} (ha : a < t.len.toNat ∨ a < t.ports.inLen.toNat) :
    a < s.len.toNat ∨ a < s.ports.inLen.toNat := by
  cases h with
  | reset r => exact .inr (ha.resolve_left (Nat.not_lt_zero a))
  | accept r f w => exact .inr (or_self_iff.1 ha)
  | _ => exact ha

/-- A step keeps the agreement: what it reads of `IN` is inside the input, and `OUT` is not read. -/
theorem State.Agrees.move (h : s.Agrees u) (hI : s.Inv) (hmove : BlockMove s t) : ∃ v, BlockMove u v ∧ t.Agrees v := by
  have hread : s.AgreesAtRead u.inp := fun a ha => h.input a.toNat (.inl (readsStayInsideTheInput s a hI ha))
  obtain ⟨v, hv, e⟩ := (hmove.with_buffers hread u.out).of_forgetStale_eq h.regs
  have hinp : v.inp = u.inp := hv.keeps.1
  have hout : v.out = s.storeInto u.out := (congrArg State.out e).symm
  refine ⟨v, hv, ⟨?_, fun a ha => ?_, fun a ha => ?_, hv.keeps_outWf h.outWf⟩⟩
  · rw [hinp, hout]
    exact e
  · rw [hinp, hmove.keeps.1]
    exact h.input a (hmove.lt_len ha)
  · rw [hout, hmove.out_eq]
    exact s.read_storeInto_congr h.outWf hI.outWf ((hmove.lt_produced hI ha).imp_left (h.output a))

/-- States that agree end in states that agree, after as many steps. -/
theorem State.Agrees.endsIn (h : s.Agrees u) (hI : s.Inv) {k : Nat} (hend : s.endsIn k t) : ∃ v, u.endsIn k v ∧ t.Agrees v := by
  induction k generalizing s u with
  | zero =>
    obtain ⟨hrun, hdone, -⟩ := hend
    cases hrun
    exact ⟨u, State.endsIn_zero (h.fsm_eq.trans hdone), h⟩
  | succ k ih =>
    obtain ⟨hn, s', hmove, hend'⟩ := State.endsIn_succ hend
    obtain ⟨u', humove, h'⟩ := h.move hI hmove
    obtain ⟨v, hv, hag⟩ := ih h' (hmove.keeps_inv hI) hend'
    exact ⟨v, humove.endsIn (h.fsm_eq ▸ hn) hv, hag⟩

/-! ## The accepting step -/

/-- The first `n` bytes of a space, and no other, as a space of its own. -/
def Memory.truncate (space : Space) (m : Memory) (n : Nat) : Memory := Memory.writeBytes [] 0 (m.bytes space n)

theorem Memory.truncate_wf (space : Space) (m : Memory) {n : Nat} (hn : n ≤ 2 ^ 64) : (m.truncate space n).wf = true :=
  Memory.writeBytes_wf _ _ _ (by simpa using hn) rfl

theorem Memory.read_truncate (space : Space) (m : Memory) {n a : Nat} (hn : n ≤ 2 ^ 64) (ha : a < n) :
    (m.truncate space n).read space a = m.read space a := by
  rw [Memory.truncate, Memory.read_writeBytes _ _ _ _ (by simpa using hn) rfl, if_pos (Nat.zero_le a), Nat.sub_zero,
    List.getD_eq_getElem _ _ (by simpa using ha), Memory.getElem_bytes]

/-- An accepted command starts in a state that meets the invariant, whatever the registers were (R91). -/
theorem State.accept_inv (hi : s.inp.wf = true) (ho : s.out.wf = true) (op : BitVec 1) (n c : Word) : (s.accept op n c).Inv where
  scan := Nat.zero_le _
  write := Nat.zero_le _
  flag := Bool.noConfusion
  inWf := hi
  outWf := ho
  phase := s.accept_phaseInv op n c

/-- After a command is accepted nothing of the registers before, of `OUT`, or of `IN` past the input is in use. -/
theorem State.accept_agrees (hports : u.ports = s.ports) (ho : u.out.wf = true)
    (hin : ∀ a, a < s.ports.inLen.toNat → u.inp.read .inp a = s.inp.read .inp a) (op : BitVec 1) (c : Word) :
    (s.accept op s.ports.inLen c).Agrees (u.accept op s.ports.inLen c) where
  regs := by rcases BitVec.eq_zero_or_eq_one op with rfl | rfl <;> simp [State.forgetStale, State.accept, hports]
  input a ha := hin a (or_self_iff.1 ha)
  output a ha := by simp at ha
  outWf := ho

/-- The state with no byte in `IN` but the input of the command on the ports. -/
def State.withInputOnly (s : State) : State := { s with inp := s.inp.truncate .inp s.ports.inLen.toNat }

/-- Settles O41: with the input alone in `IN` the operation meets the invariant and so ends, and both states agree with it. -/
theorem resultDependsOnTheCommandAndInputOnly : Obligations.ResultDependsOnTheCommandAndInputOnly := by
  intro s u bs bu r w hports hs hu hin
  have hlen : s.ports.inLen.toNat ≤ 2 ^ 64 := Nat.le_of_lt s.ports.inLen.isLt
  have hread : ∀ a, a < s.ports.inLen.toNat → s.inp.read .inp a = s.withInputOnly.inp.read .inp a :=
    fun a ha => (Memory.read_truncate .inp s.inp hlen ha).symm
  have hI : (s.withInputOnly.accept s.ports.op s.ports.inLen s.ports.outCap).Inv :=
    State.accept_inv (s := s.withInputOnly) (Memory.truncate_wf .inp s.inp hlen) hs _ _ _
  have hnext : (s.withInputOnly.accept s.ports.op s.ports.inLen s.ports.outCap).fsm ≠ .idle :=
    fun e => absurd (e ▸ s.withInputOnly.accept_fsm_mem _ _ _) (by decide)
  obtain ⟨k, ref, hend⟩ := hI.exists_endsIn r hnext
  obtain ⟨t, ht, het⟩ := (State.accept_agrees (s := s.withInputOnly) (u := s) rfl hs hread _ _).endsIn hI hend
  obtain ⟨v, hv, hev⟩ := (State.accept_agrees (s := s.withInputOnly) hports hu
    (fun a ha => (hin a ha).trans (hread a ha)) _ _).endsIn hI hend
  have hu' := blockStep_accept u bu (hports ▸ r) (hports ▸ w)
  rw [hports] at hu'
  exact ⟨_, _, t, v, k, k, blockStep_accept s bs r w, hu', ht, hv, hev.result_eq.trans het.result_eq.symm,
    hev.wpos_eq.trans het.wpos_eq.symm⟩

end Sys2Proof.Machine

/-! The encoder's micro-operations one by one (41_encoder.md R112-R115), what the micro-operations leave alone, and the operation
on an empty input (R116, 42_decoder.md R147). -/

namespace Sys2Proof.Machine

variable {s t : State}

/-! ## The results of ENC_FETCH, ENC_COUNT, ENC_EMIT_V and ENC_EMIT_C -/

theorem byte_add_ofNat (c : Byte) (k : Nat) : c + BitVec.ofNat 8 k = BitVec.ofNat 8 (c.toNat + k) := by
  apply BitVec.eq_of_toNat_eq
  simp

theorem byte_ofNat_toNat {n : Nat} (h : n ≤ 255) : (BitVec.ofNat 8 n).toNat = n := Nat.mod_eq_of_lt (Nat.lt_succ_of_le h)

/-- A word is known by its number. -/
theorem word_eq_ofNat {a : Word} {n : Nat} (h : a.toNat = n) : a = BitVec.ofNat 64 n := by
  rw [← h, BitVec.ofNat_toNat, BitVec.setWidth_eq]

/-- Settles O16: the test for the end of the input over the naturals. -/
theorem encFetchResult : Obligations.EncFetchResult := by
  refine ⟨rfl, fun s => ⟨?_, fun f => ?_⟩⟩
  · simp only [exec, execEncFetch, inputEnded_iff]
    split <;> rfl
  · simp only [State.inAccess, State.outAccess, f, inputEnded_iff, and_self]

/-- Settles O17: the three tests over the naturals; the read is made where the first two hold. -/
theorem encCountResult : Obligations.EncCountResult := by
  refine ⟨rfl, fun s hrun => ⟨?_, fun f => ?_⟩⟩
  · simp only [exec, execEncCount, runGoesOn_iff s hrun, ← byte_add_ofNat s.runCnt 1]
    split <;> rfl
  · simp only [State.inAccess, State.outAccess, f, BitVec.lt_def, runEnd_toNat s hrun, ← word_eq_ofNat (runEnd_toNat s hrun)]
    exact ⟨rfl, trivial⟩

/-- Settles O18: the test for room over the naturals. -/
theorem encEmitVResult : Obligations.EncEmitVResult := by
  refine ⟨rfl, fun s hw => ⟨?_, fun f => ?_⟩⟩
  · simp only [exec, execEncEmitV, noRoomForPair_iff s hw]
    split <;> rfl
  · simp only [State.inAccess, State.outAccess, f, noRoomForPair_iff s hw, State.valueAddr, and_self]

/-- Settles O19: neither sum wraps, for the room and the run that are left. -/
theorem encEmitCResult : Obligations.EncEmitCResult := by
  refine ⟨rfl, fun s hroom hrun => ⟨?_, fun f => ?_⟩⟩
  · simp only [exec, execEncEmitC, State.writeOut, countAddr_toNat s hroom, ← word_eq_ofNat (runEnd_toNat s hrun),
      ← word_add_ofNat s.wpos 2]
    rfl
  · simp only [State.inAccess, State.outAccess, f, ← word_eq_ofNat (countAddr_toNat s hroom), and_self]

/-! ## Frames -/

/-- Settles O25: the branches of each operation, none of which stores. -/
theorem readingMicroOperationsFrame : Obligations.ReadingMicroOperationsFrame := by
  intro s t i hi h
  simp only [List.mem_cons, List.not_mem_nil, or_false] at hi
  rcases hi with rfl | rfl | rfl | rfl | rfl
  · simp only [exec, execEncFetch] at h
    split at h <;> cases h <;> simp [State.sameBuffers]
  · simp only [exec, execEncCount] at h
    split at h <;> cases h <;> simp [State.sameBuffers]
  · simp only [exec, execDecReadV] at h
    split at h <;> cases h <;> simp [State.sameBuffers]
  · cases h
    simp [State.sameBuffers]
  · simp only [exec, execDecCheck] at h
    split at h <;> cases h <;> simp [State.sameBuffers]

/-- A store leaves every byte of `OUT` but the one it names. -/
theorem State.read_writeOut_of_ne (s : State) (hwf : s.out.wf = true) (addr : Word) (v : Byte) (a : Nat) (h : a ≠ addr.toNat) :
    (s.writeOut addr v).out.read .out a = s.out.read .out a := by
  rw [State.writeOut_out, Memory.read_write _ _ _ _ hwf, if_neg h]

/-- Settles O26: the branches of each operation; a store is at the address that the clause of its operation leaves out. -/
theorem storingMicroOperationsFrame : Obligations.StoringMicroOperationsFrame := by
  intro s t i hi h hwf
  simp only [List.mem_cons, List.not_mem_nil, or_false] at hi
  rcases hi with rfl | rfl | rfl
  · cases n : s.noRoomForPair <;> simp only [exec, execEncEmitV, n, Bool.false_eq_true, if_false, if_true] at h <;> cases h
    · simpa [n] using s.read_writeOut_of_ne hwf s.valueAddr s.runVal
    · simp
  · cases h
    simpa using s.read_writeOut_of_ne hwf s.countAddr s.runCnt
  · simp only [exec, execDecExpand, BitVec.ofNat_eq_ofNat] at h
    split at h <;> cases h
    · simp
    · simpa [*] using s.read_writeOut_of_ne hwf s.valueAddr s.pairVal

/-! ## The empty input (R116, R147) -/

/-- The step after an accepted command on no bytes finds the input ended. -/
theorem State.accept_empty_step (s : State) (r : s.ports.rst = false) (op : BitVec 1) (c : Word) :
    BlockMove (s.accept op 0 c) ((s.accept op 0 c).goto .done) ∧ (s.accept op 0 c).inAccess = none ∧
      (s.accept op 0 c).outAccess = none := by
  rcases BitVec.eq_zero_or_eq_one op with rfl | rfl
  · exact ⟨.inputEnd r rfl rfl, rfl, rfl⟩
  · have hend : (s.accept 1 0 c).noPairLeft = true := by simp [State.noPairLeft, State.inputLeft, Config.pairBytes]
    exact ⟨.payloadEnd r rfl hend, if_pos hend, rfl⟩

/-- Settles O42: the two transforms evaluate; the block takes the row `accept` and then an end of the input. -/
theorem emptyInputEndsAtOnce : Obligations.EmptyInputEndsAtOnce := by
  refine ⟨fun _ => ⟨rfl, rfl⟩, fun s b r w hlen => ?_⟩
  obtain ⟨hin, hout⟩ := State.no_access_of_not_busy b
  have haccept := blockStep_accept s b r w
  rw [hlen] at haccept
  obtain ⟨hmove, hin', hout'⟩ := s.accept_empty_step r s.ports.op s.ports.outCap
  refine ⟨_, _, haccept, (blockStep_iff _ _).2 hmove, fun e => ?_, rfl, rfl, rfl, rfl, hin, hin', hout, hout'⟩
  exact absurd (e ▸ s.accept_fsm_mem s.ports.op 0 s.ports.outCap) (by decide)

end Sys2Proof.Machine

/-! The pure encoder (41_encoder.md R110, R111, R120, R125). An input is taken apart into the runs its Pairs stand for:
`run_induction` is the induction over them and `full_run` the step of `full`. -/

namespace Sys2Proof.Machine

/-! ## The full encoding, a run at a time -/

/-- The count ends at its limit, or where the next byte is another one or none is left. -/
theorem matchingPrefix_maximal (b : Byte) (k : Nat) (l : List Byte) :
    matchingPrefix b k l = k ∨ (l.drop (matchingPrefix b k l)).head? ≠ some b := by
  induction k generalizing l with
  | zero => exact .inl rfl
  | succ k ih =>
    cases l with
    | nil => exact .inr (by simp)
    | cons x xs =>
      simp only [matchingPrefix]
      split
      · simpa using ih xs
      · exact .inr (by simpa using ‹¬ x = b›)

/-- Of an input of `n` bytes `b` and then `tail`, a pass of R110 counts the `n` bytes: there are at most 255 of them, and fewer only
where the run ends. -/
structure PairRun (b : Byte) (n : Nat) (tail : List Byte) : Prop where
  pos : 1 ≤ n
  le : n ≤ 255
  maximal : n = 255 ∨ tail.head? ≠ some b

/-- The count byte of a Pair holds its count. -/
theorem PairRun.count_toNat {b : Byte} {n : Nat} {tail : List Byte} (h : PairRun b n tail) : (BitVec.ofNat 8 n).toNat = n :=
  byte_ofNat_toNat h.le

theorem PairRun.matchingPrefix_eq {b : Byte} {n : Nat} {tail : List Byte} (h : PairRun b (n + 1) tail) :
    matchingPrefix b 254 (List.replicate n b ++ tail) = n := by
  obtain ⟨-, hle, hmax⟩ := h
  refine matchingPrefix_replicate b 254 n tail ?_
  rcases Nat.lt_or_ge n 254 with hlt | hge
  · exact .inr ⟨hlt, hmax.resolve_left (by omega)⟩
  · exact .inl (by omega)

/-- Induction over the runs of an input that one Pair each stands for. -/
theorem run_induction {P : List Byte → Prop} (nil : P [])
    (run : ∀ b n tail, PairRun b n tail → P tail → P (List.replicate n b ++ tail)) (raw : List Byte) : P raw := by
  induction hl : raw.length using Nat.strong_induction_on generalizing raw with
  | _ l ih =>
    subst hl
    cases raw with
    | nil => exact nil
    | cons b rest =>
      obtain ⟨hle, -⟩ := matchingPrefix_le b 254 rest
      have hmax := matchingPrefix_maximal b 254 rest
      have hsplit := matchingPrefix_split b 254 rest
      have htail := ih _ (by rw [List.length_drop, List.length_cons]; omega) (rest.drop (matchingPrefix b 254 rest)) rfl
      have h := run b _ _ ⟨by omega, by omega, hmax.imp_left (congrArg (· + 1))⟩ htail
      rwa [List.replicate_succ, List.cons_append, ← hsplit] at h

/-- With room for two bytes per byte of input no Pair is left out. -/
theorem full_eq_greedyPairs (raw : List Byte) : full raw = greedyPairs raw.length raw := by
  obtain ⟨heven, hle⟩ := greedyPairs_length raw.length raw (Nat.le_refl _)
  rw [full, enc, encLoop_eq _ _ _ _ (Nat.le_refl _) (Nat.zero_le _)]
  simp only [List.nil_append, List.length_nil]
  exact List.take_of_length_le (by omega)

theorem greedyPairs_eq_full {n : Nat} {raw : List Byte} (h : raw.length ≤ n) : greedyPairs n raw = full raw := by
  rw [full_eq_greedyPairs]
  exact greedyPairs_bound n _ raw h (Nat.le_refl _)

@[simp] theorem full_nil : full [] = [] := rfl

/-- One pass of R110. -/
theorem full_cons (b : Byte) (rest : List Byte) :
    full (b :: rest) =
      b :: BitVec.ofNat 8 (matchingPrefix b 254 rest + 1) :: full (rest.drop (matchingPrefix b 254 rest)) := by
  rw [full_eq_greedyPairs (b :: rest), List.length_cons, greedyPairs, greedyPairs_eq_full (by simp)]

theorem full_run {b : Byte} {n : Nat} {tail : List Byte} (h : PairRun b n tail) :
    full (List.replicate n b ++ tail) = b :: BitVec.ofNat 8 n :: full tail := by
  obtain ⟨n, rfl⟩ := Nat.exists_eq_add_of_le' h.pos
  rw [List.replicate_succ, List.cons_append, full_cons, h.matchingPrefix_eq, List.drop_left' (List.length_replicate ..)]

theorem full_length_even (raw : List Byte) : (full raw).length % 2 = 0 := by
  rw [full_eq_greedyPairs]
  exact (greedyPairs_length _ raw (Nat.le_refl _)).1

theorem length_full (raw : List Byte) : (full raw).length = 2 * pairCount raw := by
  have := full_length_even raw
  rw [pairCount]
  omega

theorem pairCount_le_length (raw : List Byte) : pairCount raw ≤ raw.length := by
  have h := (greedyPairs_length _ raw (Nat.le_refl _)).2
  rw [← full_eq_greedyPairs, length_full] at h
  omega

theorem pairCount_run {b : Byte} {n : Nat} {tail : List Byte} (h : PairRun b n tail) :
    pairCount (List.replicate n b ++ tail) = pairCount tail + 1 := by
  have hl := congrArg List.length (full_run h)
  simp only [length_full, List.length_cons] at hl
  omega

/-! ## The capacity (R111) -/

/-- `enc` writes the Pairs of the full encoding that have room, and reports if one has not. -/
theorem enc_eq (raw : List Byte) (cap : Nat) :
    enc raw cap =
      ((full raw).take (2 * min (pairCount raw) (cap / 2)),
        if cap / 2 < pairCount raw then .capacityExceeded else .ok) := by
  rw [enc, encLoop_eq _ _ _ _ (Nat.le_refl _) (Nat.zero_le _), ← full_eq_greedyPairs]
  rfl

theorem enc_exceeded_iff (raw : List Byte) (cap : Nat) : (enc raw cap).2 = .capacityExceeded ↔ cap / 2 < pairCount raw := by
  rw [enc_eq]
  simp

theorem length_enc (raw : List Byte) (cap : Nat) : (enc raw cap).1.length = 2 * min (pairCount raw) (cap / 2) := by
  rw [enc_eq, List.length_take, length_full]
  omega

/-- No count byte of the full encoding is 0. -/
theorem full_count_pos (raw : List Byte) (k : Nat) (hk : k < pairCount raw) : 1 ≤ ((full raw).getD (2 * k + 1) 0).toNat := by
  induction raw using run_induction generalizing k with
  | nil => cases hk
  | run b n tail h ih =>
    rw [full_run h]
    rw [pairCount_run h] at hk
    cases k with
    | zero => exact h.count_toNat.symm ▸ h.pos
    | succ k => exact ih k (by omega)

/-- Settles O43: every fact is read off the closed form `enc_eq`, with the length of `full` and its count bytes. -/
theorem encodingFacts : Obligations.EncodingFacts := by
  intro raw cap
  have hlen := length_enc raw cap
  have hle := pairCount_le_length raw
  have hex := enc_exceeded_iff raw cap
  refine ⟨by omega, by omega, by omega, fun k hk => ?_, fun hroom => ?_, congrArg Prod.fst (enc_eq raw cap), hex, rfl,
    fun h => ?_⟩
  · have hpos := full_count_pos raw k (by omega)
    rw [List.getD_eq_getElem _ _ hk]
    rw [List.getD_eq_getElem _ _ (by rw [length_full]; omega)] at hpos
    simpa only [enc_eq, List.getElem_take] using hpos
  · rw [enc_eq, if_neg (by omega), List.take_of_length_le (by rw [length_full]; omega)]
  · have := hex.1 h
    rw [length_full]
    omega

/-! ## Long runs (R125) -/

/-- The Pairs of `n` copies of `v`. -/
def runPairs (v : Byte) (n : Nat) : List Byte :=
  (List.replicate (n / 255) [v, 255]).flatten ++ if n % 255 = 0 then [] else [v, BitVec.ofNat 8 (n % 255)]

theorem length_runPairs (v : Byte) (n : Nat) : (runPairs v n).length = 2 * ((n + 254) / 255) := by
  rw [runPairs]
  split <;> simp <;> omega

/-- A run of 255 more copies has one more Pair of count 255. -/
theorem runPairs_add_max (v : Byte) (n : Nat) : runPairs v (n + 255) = v :: 255 :: runPairs v n := by
  rw [runPairs, runPairs, Nat.add_div_right n (by decide), Nat.add_mod_right, List.replicate_succ]
  rfl

theorem full_replicate_append (v : Byte) (n : Nat) (tail : List Byte) (h : tail.head? ≠ some v) :
    full (List.replicate n v ++ tail) = runPairs v n ++ full tail := by
  induction n using Nat.strong_induction_on with
  | _ n ih =>
    rcases Nat.lt_or_ge n 255 with hlt | hge
    · obtain rfl | hpos := Nat.eq_zero_or_pos n
      · rfl
      · rw [full_run ⟨hpos, by omega, .inr h⟩, runPairs, Nat.div_eq_of_lt hlt, Nat.mod_eq_of_lt hlt, if_neg (by omega)]
        rfl
    · obtain ⟨m, rfl⟩ := Nat.exists_eq_add_of_le' hge
      rw [runPairs_add_max, Nat.add_comm m, List.replicate_add, List.append_assoc,
        full_run ⟨by decide, by decide, .inl rfl⟩, ih m (by omega)]
      rfl

/-- The first byte of runs that are not empty is the value of the first run. -/
theorem head?_flatMap_replicate {runs : List (Byte × Nat)} (h : ∀ r ∈ runs, 1 ≤ r.2) :
    (runs.flatMap fun r => List.replicate r.2 r.1).head? = runs.head?.map Prod.fst := by
  cases runs with
  | nil => rfl
  | cons r runs =>
    obtain ⟨n, hn⟩ := Nat.exists_eq_add_of_le' (h r List.mem_cons_self)
    simp [hn, List.replicate_succ]

theorem full_flatMap_replicate (runs : List (Byte × Nat)) (hpos : ∀ r ∈ runs, 1 ≤ r.2)
    (hchain : runs.IsChain (fun r r' => r.1 ≠ r'.1)) :
    full (runs.flatMap fun r => List.replicate r.2 r.1) = runs.flatMap fun r => runPairs r.1 r.2 := by
  induction runs with
  | nil => rfl
  | cons r runs ih =>
    have hpos' : ∀ r ∈ runs, 1 ≤ r.2 := fun r hr => hpos r (List.mem_cons_of_mem _ hr)
    obtain ⟨hhead, hchain'⟩ := List.isChain_cons.1 hchain
    have hnext : (runs.flatMap fun r => List.replicate r.2 r.1).head? ≠ some r.1 := by
      rw [head?_flatMap_replicate hpos']
      cases runs with
      | nil => simp
      | cons r' runs => simpa using (hhead r' rfl).symm
    rw [List.flatMap_cons, List.flatMap_cons, full_replicate_append _ _ _ hnext, ih hpos' hchain']

/-! ## The canonical payload (R120) -/

theorem expandPairs_cons (v c : Byte) (rest : List Byte) :
    expandPairs (v :: c :: rest) = List.replicate c.toNat v ++ expandPairs rest := rfl

/-- The full encoding decodes to the input. -/
theorem expandPairs_full (raw : List Byte) : expandPairs (full raw) = raw := by
  induction raw using run_induction with
  | nil => rfl
  | run b n tail h ih => rw [full_run h, expandPairs_cons, h.count_toNat, ih]

theorem full_replicate (v : Byte) (n : Nat) : full (List.replicate n v) = runPairs v n := by
  have h := full_replicate_append v n [] (by simp)
  rwa [full_nil, List.append_nil, List.append_nil] at h

/-- Settles O44: a maximal run is followed by another value, so `full` splits there; one run is the case of an empty rest. -/
theorem longRunsAreSplitGreedily : Obligations.LongRunsAreSplitGreedily := by
  refine ⟨full_flatMap_replicate, fun v n => ⟨?_, expandPairs_full _⟩⟩
  rw [pairCount, full_replicate, length_runPairs]
  omega

/-- Canonical Pairs after a Pair: its count is not 0, and it is 255 if the next Pair has its value. -/
theorem canonicalPairs_cons_iff {v c : Byte} {rest : List Byte} (h : rest.length % 2 = 0) :
    CanonicalPairs (v :: c :: rest) ↔ c ≠ 0 ∧ (rest.head? = some v → c = 255) ∧ CanonicalPairs rest := by
  match rest, h with
  | [], _ => simp [CanonicalPairs]
  | [_], h => simp at h
  | v' :: c' :: rest, _ => simp [CanonicalPairs, eq_comm (a := v)]

/-- A payload with no count of 0 begins with the byte its expansion begins with. -/
theorem head?_expandPairs_of_canonical {payload : List Byte} (heven : payload.length % 2 = 0) (h : CanonicalPairs payload) :
    (expandPairs payload).head? = payload.head? := by
  match payload, heven with
  | [], _ => rfl
  | [_], heven => simp at heven
  | v :: c :: rest, heven =>
    have heven' : rest.length % 2 = 0 := (Nat.add_mod_right rest.length 2).symm.trans heven
    obtain ⟨hc, -, -⟩ := (canonicalPairs_cons_iff heven').1 h
    have hpos : c.toNat ≠ 0 := fun e => hc (BitVec.eq_of_toNat_eq e)
    rw [expandPairs_cons, List.head?_append, List.head?_replicate, if_neg hpos]
    rfl

/-- The full encoding begins with the byte the input begins with. -/
theorem head?_full (raw : List Byte) : (full raw).head? = raw.head? := by
  cases raw with
  | nil => rfl
  | cons b rest => rw [full_cons]; rfl

theorem canonicalPairs_full (raw : List Byte) : CanonicalPairs (full raw) := by
  induction raw using run_induction with
  | nil => trivial
  | run b n tail h ih =>
    rw [full_run h, canonicalPairs_cons_iff (full_length_even tail), head?_full]
    refine ⟨fun e => ?_, fun e => ?_, ih⟩
    · have hpos := h.pos
      rw [← h.count_toNat, e] at hpos
      exact absurd hpos (by decide)
    · rw [h.maximal.resolve_right (not_not_intro e)]
      rfl

/-- Each Pair of a canonical payload stands for a run that the encoder gives one Pair. -/
theorem full_expandPairs {payload : List Byte} (heven : payload.length % 2 = 0) (h : CanonicalPairs payload) :
    full (expandPairs payload) = payload := by
  induction payload using expandPairs.induct with
  | case1 v c rest ih =>
    have heven' : rest.length % 2 = 0 := (Nat.add_mod_right rest.length 2).symm.trans heven
    obtain ⟨hc, hnext, hrest⟩ := (canonicalPairs_cons_iff heven').1 h
    have hrun : PairRun v c.toNat (expandPairs rest) := by
      refine ⟨Nat.pos_of_ne_zero fun e => hc (BitVec.eq_of_toNat_eq e), Nat.le_of_lt_succ c.isLt, ?_⟩
      rw [head?_expandPairs_of_canonical heven' hrest]
      exact (em' (rest.head? = some v)).symm.imp_left fun e => congrArg BitVec.toNat (hnext e)
    rw [expandPairs_cons, full_run hrun, ih heven' hrest, BitVec.ofNat_toNat, BitVec.setWidth_eq]
  | case2 payload hshort =>
    match payload, heven with
    | [], _ => rfl
    | [_], heven => simp at heven
    | v :: c :: rest, _ => exact absurd rfl (hshort v c rest)

/-- Settles O45: a payload that is canonical is the full encoding of what it expands to. -/
theorem encodingIsTheCanonicalPayload : Obligations.EncodingIsTheCanonicalPayload := by
  refine fun raw => ⟨canonicalPairs_full raw, expandPairs_full raw, fun payload heven hcan hraw => ?_⟩
  rw [← hraw, full_expandPairs heven hcan]

end Sys2Proof.Machine

/-! A whole encode (41_encoder.md R123, R124, R126): the block makes one pass of R110 for each Pair, so that the induction over the
passes of `encLoop` gives the result and the number of steps at once. -/

namespace Sys2Proof.Machine

variable {s t u : State}

/-! ## The input that is left -/

theorem State.length_input (s : State) : s.input.length = s.len.toNat := Memory.length_bytes _ _ _

/-- The input from an index inside it on begins with the byte there. -/
theorem State.drop_input (s : State) {a : Nat} (h : a < s.len.toNat) :
    s.input.drop a = s.inp.read .inp a :: s.input.drop (a + 1) := by
  rw [List.drop_eq_getElem_cons (by rwa [s.length_input])]
  exact congrArg (· :: _) (Memory.getElem_bytes _ _ _ _ _)

/-- No input is left from its end on. -/
theorem State.drop_input_len (s : State) {a : Nat} (h : s.len.toNat ≤ a) : s.input.drop a = [] :=
  List.drop_of_length_le (by rwa [s.length_input])

/-- The first bytes of a space after bytes are written behind them. -/
theorem Memory.bytes_writeBytes_append (space : Space) (m : Memory) (n : Nat) (bs : List Byte) (hl : n + bs.length ≤ 2 ^ 64)
    (h : m.wf = true) : (m.writeBytes n bs).bytes space (n + bs.length) = m.bytes space n ++ bs := by
  apply List.ext_getElem
  · simp
  · intro i hi _
    rw [Memory.length_bytes] at hi
    rw [Memory.getElem_bytes, Memory.read_writeBytes space bs m n hl h]
    by_cases hlt : i < n
    · rw [if_neg (by omega), List.getElem_append_left (by simpa using hlt), Memory.getElem_bytes]
    · rw [if_pos (by omega), List.getElem_append_right (by simpa using hlt), List.getD_eq_getElem _ _ (by omega)]
      simp

/-! ## One pass -/

/-- The state with a run of `n` bytes `v` in its registers. -/
def State.withRun (s : State) (f : Fsm) (v : Byte) (n : Nat) : State :=
  { s with fsm := f, runVal := v, runCnt := BitVec.ofNat 8 n }

theorem State.withRun_runCnt_toNat (s : State) (f : Fsm) (v : Byte) {n : Nat} (h : n ≤ 255) :
    (s.withRun f v n).runCnt.toNat = n :=
  byte_ofNat_toNat h

/-- `ENC_COUNT` with a run inside the input (R113). -/
theorem State.withRun_count_move (r : s.ports.rst = false) (v : Byte) {n : Nat} (hn : n ≤ 255)
    (hrun : s.rpos.toNat + n ≤ s.len.toNat) :
    BlockMove (s.withRun .encCount v n)
      (if n < 255 ∧ s.rpos.toNat + n < s.len.toNat ∧ s.inp.read .inp (s.rpos.toNat + n) = v then s.withRun .encCount v (n + 1)
      else s.withRun .encEmitV v n) := by
  have hcnt := s.withRun_runCnt_toNat .encCount v hn
  have hmove := count_move (s.withRun .encCount v n) r rfl (by rw [hcnt]; exact hrun)
  rw [hcnt] at hmove
  rw [State.withRun.eq_def s .encCount v (n + 1), BitVec.ofNat_add]
  exact hmove

/-- A run that goes no further is closed in one step. -/
theorem State.closeRun_runsTo (r : s.ports.rst = false) (v : Byte) {n : Nat} (hn : n ≤ 255)
    (hrun : s.rpos.toNat + n ≤ s.len.toNat)
    (hstop : ¬ (n < 255 ∧ s.rpos.toNat + n < s.len.toNat ∧ s.inp.read .inp (s.rpos.toNat + n) = v)) :
    (s.withRun .encCount v n).runsTo 1 (s.withRun .encEmitV v n) := by
  have hmove := State.withRun_count_move r v hn hrun
  rw [if_neg hstop] at hmove
  exact hmove.runsTo Fsm.noConfusion (State.runsTo_refl _)

/-- The run is counted as in R110: with `k` bytes more to count at most, one step for each that is counted, and one that closes the
run. -/
theorem State.count_runsTo (r : s.ports.rst = false) (v : Byte) (k n : Nat) (hk : n + k = 255)
    (hrun : s.rpos.toNat + n ≤ s.len.toNat) :
    (s.withRun .encCount v n).runsTo (matchingPrefix v k (s.input.drop (s.rpos.toNat + n)) + 1)
      (s.withRun .encEmitV v (n + matchingPrefix v k (s.input.drop (s.rpos.toNat + n)))) := by
  induction k generalizing n with
  | zero => exact State.closeRun_runsTo r v (by omega) hrun (by omega)
  | succ k ih =>
    by_cases hin : s.rpos.toNat + n < s.len.toNat
    · rw [s.drop_input hin, matchingPrefix]
      split
      next hb =>
        have hmove := State.withRun_count_move r v (by omega) hrun
        rw [if_pos ⟨by omega, hin, hb⟩] at hmove
        have h := hmove.runsTo Fsm.noConfusion (ih (n + 1) (by omega) hin)
        rwa [Nat.add_assoc n 1, Nat.add_comm 1] at h
      next hb => exact State.closeRun_runsTo r v (by omega) hrun fun ⟨_, _, hnext⟩ => hb hnext
    · rw [s.drop_input_len (by omega)]
      exact State.closeRun_runsTo r v (by omega) hrun (by omega)

/-- From `ENC_FETCH` on, the run at `rpos` is counted and closed. -/
theorem State.fetch_runsTo (r : s.ports.rst = false) (f : s.fsm = .encFetch) {b : Byte} {rest : List Byte}
    (h : s.input.drop s.rpos.toNat = b :: rest) :
    s.runsTo (matchingPrefix b 254 rest + 2) (s.withRun .encEmitV b (matchingPrefix b 254 rest + 1)) := by
  have hlt : s.rpos.toNat < s.len.toNat := by
    by_contra hge
    simp [s.drop_input_len (Nat.le_of_not_lt hge)] at h
  rw [s.drop_input hlt] at h
  cases h
  have hmove : BlockMove s (s.withRun .encCount _ 1) := .fetch r f fun e => Nat.ne_of_lt hlt (congrArg BitVec.toNat e)
  have hrun := hmove.runsTo (by simp [f]) (State.count_runsTo r (s.inp.read .inp s.rpos.toNat) 254 1 rfl hlt)
  rwa [Nat.add_comm 1] at hrun

/-- The state after a pass of R110 that writes the Pair of `n` bytes `v`. -/
def State.afterPair (s : State) (v : Byte) (n : Nat) : State :=
  { s.withRun .encFetch v n with
    out := s.out.writeBytes s.wpos.toNat [v, BitVec.ofNat 8 n]
    wpos := BitVec.ofNat 64 (s.wpos.toNat + 2)
    rpos := BitVec.ofNat 64 (s.rpos.toNat + n) }

@[simp] theorem State.afterPair_input (s : State) (v : Byte) (n : Nat) : (s.afterPair v n).input = s.input := rfl

/-- `ENC_EMIT_C` over the naturals (R115). -/
theorem emitCount_move (r : s.ports.rst = false) (f : s.fsm = .encEmitC) (hroom : s.wpos.toNat + 2 ≤ s.cap.toNat)
    (hrun : s.rpos.toNat + s.runCnt.toNat ≤ s.len.toNat) :
    BlockMove s
      { s with
        out := s.out.write (s.wpos.toNat + 1) s.runCnt
        wpos := BitVec.ofNat 64 (s.wpos.toNat + 2)
        rpos := BitVec.ofNat 64 (s.rpos.toNat + s.runCnt.toNat)
        fsm := .encFetch } := by
  obtain ⟨-, emitC⟩ := encEmitCResult
  rw [← blockStep_iff, blockStep_of_fetch r (by rw [s.fetch_eq, f])]
  exact (emitC s hroom hrun).1

/-- With room for a Pair the two emitting steps write it (R114, R115). -/
theorem State.emit_runsTo (r : s.ports.rst = false) (v : Byte) {n : Nat} (hn : n ≤ 255) (hrun : s.rpos.toNat + n ≤ s.len.toNat)
    (hroom : s.wpos.toNat + 2 ≤ s.cap.toNat) : (s.withRun .encEmitV v n).runsTo 2 (s.afterPair v n) := by
  have hfits : s.noRoomForPair = false := by
    rw [← Bool.not_eq_true, noRoomForPair_iff s (by omega)]
    omega
  have hcnt := s.withRun_runCnt_toNat .encEmitC v hn
  have hvalue := BlockMove.emitValue (s := s.withRun .encEmitV v n) r rfl hfits
  have hcount := emitCount_move (s := { s.withRun .encEmitC v n with out := s.out.write s.wpos.toNat v }) r rfl hroom
    (by rwa [hcnt])
  rw [hcnt] at hcount
  exact hvalue.runsTo Fsm.noConfusion (hcount.runsTo Fsm.noConfusion (State.runsTo_refl _))

/-! ## The passes of R110 -/

/-- The steps of an encode from `ENC_FETCH` on, by the room, in Pairs, and the Pairs of the input that is left: three and its count
for a Pair that is written, two and its count for the one that has no room, one for the end of the input (R124). -/
def encodeSteps : Nat → List Byte → Nat
  | 0, _ :: c :: _ => c.toNat + 2
  | room + 1, _ :: c :: pairs => c.toNat + 3 + encodeSteps room pairs
  | _, _ => 1

@[simp] theorem encodeSteps_nil (room : Nat) : encodeSteps room [] = 1 := by cases room <;> rfl

/-- The operation under way in `s` ends after `k` steps in `t` with the result `r`, and what lies in `OUT` past the result is as it
was (R97, R123). -/
structure State.Completes (s : State) (k : Nat) (t : State) (r : List Byte × Status) : Prop where
  ends : s.endsIn k t
  result_eq : t.result = r
  wpos_le : s.wpos.toNat ≤ t.wpos.toNat
  past : ∀ a : Nat, t.wpos.toNat ≤ a → t.out.read .out a = s.out.read .out a

theorem State.runsTo.endsIn {j k : Nat} (h : s.runsTo j t) (hend : t.endsIn k u) : s.endsIn (j + k) u := by
  obtain ⟨hrun, hdone, hbefore⟩ := hend
  obtain ⟨hrun', hbefore'⟩ := State.runsTo_trans h ⟨hrun, hbefore⟩
  exact ⟨hrun', hdone, hbefore'⟩

/-- Steps before, that leave what is past their end, are steps of the same operation. -/
theorem State.Completes.after {r : List Byte × Status} {j k : Nat} (h : t.Completes k u r) (hrun : s.runsTo j t)
    (hpos : s.wpos.toNat ≤ t.wpos.toNat) (hpast : ∀ a : Nat, t.wpos.toNat ≤ a → t.out.read .out a = s.out.read .out a) :
    s.Completes (j + k) u r where
  ends := State.runsTo.endsIn hrun h.ends
  result_eq := h.result_eq
  wpos_le := Nat.le_trans hpos h.wpos_le
  past a ha := (h.past a ha).trans (hpast a (Nat.le_trans h.wpos_le ha))

/-- The state is about to make a pass of R110. -/
structure State.AtPass (s : State) : Prop where
  rst : s.ports.rst = false
  fsm : s.fsm = .encFetch
  flag : s.capExceeded = false
  scan : s.rpos.toNat ≤ s.len.toNat
  write : s.wpos.toNat ≤ s.cap.toNat
  outWf : s.out.wf = true

/-- The run that a pass counts is inside the input. -/
theorem State.run_le_len {b : Byte} {rest : List Byte} (h : s.input.drop s.rpos.toNat = b :: rest) :
    s.rpos.toNat + (matchingPrefix b 254 rest + 1) ≤ s.len.toNat := by
  obtain ⟨-, hle⟩ := matchingPrefix_le b 254 rest
  have hlen := congrArg List.length h
  rw [List.length_drop, s.length_input, List.length_cons] at hlen
  omega

/-- A Pair of R110 counts at most 255 bytes. -/
theorem matchingPrefix_succ_le (b : Byte) (rest : List Byte) : matchingPrefix b 254 rest + 1 ≤ 255 :=
  Nat.succ_le_succ (matchingPrefix_le b 254 rest).1

/-- A pass leads to the next one, with the run read and the Pair written. -/
theorem State.AtPass.afterPair (h : s.AtPass) (v : Byte) {n : Nat} (hrun : s.rpos.toNat + n ≤ s.len.toNat)
    (hroom : s.wpos.toNat + 2 ≤ s.cap.toNat) :
    (s.afterPair v n).AtPass ∧ (s.afterPair v n).rpos.toNat = s.rpos.toNat + n ∧
      (s.afterPair v n).wpos.toNat = s.wpos.toNat + 2 := by
  have hlen := s.len.isLt
  have hcap := s.cap.isLt
  have hr : (s.afterPair v n).rpos.toNat = s.rpos.toNat + n := Nat.mod_eq_of_lt (by omega)
  have hw : (s.afterPair v n).wpos.toNat = s.wpos.toNat + 2 := Nat.mod_eq_of_lt (by omega)
  refine ⟨⟨h.rst, rfl, h.flag, hr.trans_le hrun, hw.trans_le hroom, ?_⟩, hr, hw⟩
  exact Memory.writeBytes_wf _ _ _ (Nat.le_trans hroom (Nat.le_of_lt hcap)) h.outWf

/-- The Pair of a pass is behind what was written before, and what is past it is as it was. -/
theorem State.AtPass.out_afterPair (h : s.AtPass) (v : Byte) (n : Nat) (hroom : s.wpos.toNat + 2 ≤ s.cap.toNat) :
    (s.afterPair v n).out.bytes .out (s.wpos.toNat + 2) = s.out.bytes .out s.wpos.toNat ++ [v, BitVec.ofNat 8 n] ∧
      ∀ a : Nat, s.wpos.toNat + 2 ≤ a → (s.afterPair v n).out.read .out a = s.out.read .out a := by
  have hfits : s.wpos.toNat + [v, BitVec.ofNat 8 n].length ≤ 2 ^ 64 := Nat.le_trans hroom (Nat.le_of_lt s.cap.isLt)
  refine ⟨Memory.bytes_writeBytes_append .out _ _ _ hfits h.outWf, fun a ha => ?_⟩
  refine (Memory.read_writeBytes .out _ _ _ hfits h.outWf a).trans ?_
  rw [if_pos (by omega), List.getD_eq_default _ _ (Nat.le_sub_of_add_le' ha)]

/-- With room for a Pair the block makes one pass of R110. -/
theorem State.AtPass.pass (h : s.AtPass) {b : Byte} {rest : List Byte} (hleft : s.input.drop s.rpos.toNat = b :: rest)
    (hroom : s.wpos.toNat + 2 ≤ s.cap.toNat) :
    ∃ u, u.AtPass ∧ s.runsTo (matchingPrefix b 254 rest + 1 + 3) u ∧ u.cap = s.cap ∧
      u.input.drop u.rpos.toNat = rest.drop (matchingPrefix b 254 rest) ∧ u.wpos.toNat = s.wpos.toNat + 2 ∧
      u.out.bytes .out u.wpos.toNat =
        s.out.bytes .out s.wpos.toNat ++ [b, BitVec.ofNat 8 (matchingPrefix b 254 rest + 1)] ∧
      ∀ a : Nat, u.wpos.toNat ≤ a → u.out.read .out a = s.out.read .out a := by
  have hrun := State.run_le_len hleft
  obtain ⟨hpass, hr, hw⟩ := h.afterPair b hrun hroom
  obtain ⟨hout, hpast⟩ := h.out_afterPair b (matchingPrefix b 254 rest + 1) hroom
  have hemit := State.emit_runsTo h.rst b (matchingPrefix_succ_le b rest) hrun hroom
  have hsteps := State.runsTo_trans (State.fetch_runsTo h.rst h.fsm hleft) hemit
  refine ⟨_, hpass, hsteps, rfl, ?_, hw, ?_, ?_⟩
  · rw [hr, State.afterPair_input, ← List.drop_drop, hleft, List.drop_succ_cons]
  · rw [hw, hout]
  · rwa [hw]

/-- At the end of the input the operation ends in one step (R112). -/
theorem State.AtPass.completes_at_end (h : s.AtPass) (hleft : s.input.drop s.rpos.toNat = []) :
    s.Completes 1 (s.goto .done) (s.out.bytes .out s.wpos.toNat, .ok) := by
  rw [List.drop_eq_nil_iff, s.length_input] at hleft
  have hmove := BlockMove.inputEnd h.rst h.fsm (BitVec.eq_of_toNat_eq (Nat.le_antisymm h.scan hleft))
  refine ⟨hmove.endsIn (by simp [h.fsm]) (State.endsIn_zero rfl), ?_, Nat.le_refl _, fun _ _ => rfl⟩
  simp [State.result, State.written, h.flag]

/-- Without room for a Pair the operation ends after the run is counted (R114). -/
theorem State.AtPass.completes_without_room (h : s.AtPass) {b : Byte} {rest : List Byte}
    (hleft : s.input.drop s.rpos.toNat = b :: rest) (hroom : s.cap.toNat - s.wpos.toNat < 2) :
    s.Completes (matchingPrefix b 254 rest + 2 + 1) (s.withRun .encEmitV b (matchingPrefix b 254 rest + 1)).raiseCapacityExceeded
      (s.out.bytes .out s.wpos.toNat, .capacityExceeded) := by
  have hcount := State.fetch_runsTo h.rst h.fsm hleft
  have hraise := BlockMove.raiseEnc (s := s.withRun .encEmitV b (matchingPrefix b 254 rest + 1)) h.rst rfl
    ((noRoomForPair_iff s h.write).2 hroom)
  exact ⟨State.runsTo.endsIn hcount (hraise.endsIn Fsm.noConfusion (State.endsIn_zero rfl)), rfl, Nat.le_refl _, fun _ _ => rfl⟩

/-- The block makes the passes of R110: from before a pass on, the operation ends with the result of the loop. -/
theorem State.AtPass.completes (n : Nat) (h : s.AtPass) (hn : (s.input.drop s.rpos.toNat).length ≤ n) :
    ∃ t, s.Completes (encodeSteps ((s.cap.toNat - s.wpos.toNat) / 2) (full (s.input.drop s.rpos.toNat))) t
      (encLoop s.cap.toNat n (s.input.drop s.rpos.toNat) (s.out.bytes .out s.wpos.toNat)) := by
  induction n generalizing s with
  | zero =>
    have hleft := List.eq_nil_of_length_eq_zero (Nat.le_zero.1 hn)
    rw [hleft, full_nil, encodeSteps_nil]
    exact ⟨_, h.completes_at_end hleft⟩
  | succ n ih =>
    cases hleft : s.input.drop s.rpos.toNat with
    | nil =>
      rw [full_nil, encodeSteps_nil]
      exact ⟨_, h.completes_at_end hleft⟩
    | cons b rest =>
      have hc : (BitVec.ofNat 8 (matchingPrefix b 254 rest + 1)).toNat = matchingPrefix b 254 rest + 1 :=
        byte_ofNat_toNat (matchingPrefix_succ_le b rest)
      rw [full_cons, encLoop, Memory.length_bytes]
      split
      next hfull =>
        rw [Nat.div_eq_of_lt hfull, encodeSteps, hc]
        exact ⟨_, h.completes_without_room hleft hfull⟩
      next hroom =>
        obtain ⟨u, hpass, hsteps, hcap, hinput, hw, hout, hpast⟩ := h.pass hleft (by omega)
        have hleft' : (u.input.drop u.rpos.toNat).length ≤ n := by
          rw [hinput, List.length_drop]
          rw [hleft, List.length_cons] at hn
          omega
        obtain ⟨t, ht⟩ := ih hpass hleft'
        rw [hinput, hout, hcap, hw] at ht
        rw [show (s.cap.toNat - s.wpos.toNat) / 2 = (s.cap.toNat - (s.wpos.toNat + 2)) / 2 + 1 by omega, encodeSteps, hc]
        exact ⟨t, ht.after hsteps (hw ▸ Nat.le_add_right _ _) hpast⟩

/-! ## The whole encode -/

/-- The accepting step of an encode leads to the first pass (R91). -/
theorem State.accept_atPass (r : s.ports.rst = false) (hwf : s.out.wf = true) (n c : Word) : (s.accept 0 n c).AtPass :=
  ⟨r, rfl, rfl, Nat.zero_le _, Nat.zero_le _, hwf⟩

/-- An accepted `ENCODE` ends with `enc` of the input, after a number of steps that the Pairs of the input say. -/
theorem encode_completes {raw : List Byte} (b : s.busy = false) (r : s.ports.rst = false) (w : s.ports.start = true)
    (hop : s.ports.op = 0) (hlen : raw.length < 2 ^ 64) (hin : s.ports.inLen = BitVec.ofNat 64 raw.length)
    (hraw : s.inp.bytes .inp raw.length = raw) (hwf : s.out.wf = true) :
    ∃ s₁ t, blockStep s = .next s₁ ∧ s₁.out = s.out ∧
      s₁.Completes (encodeSteps (s.ports.outCap.toNat / 2) (full raw)) t (enc raw s.ports.outCap.toNat) := by
  have haccept := blockStep_accept s b r w
  rw [hop] at haccept
  have hn : s.ports.inLen.toNat = raw.length := by rw [hin, BitVec.toNat_ofNat, Nat.mod_eq_of_lt hlen]
  have hinput : (s.accept 0 s.ports.inLen s.ports.outCap).input = raw := by
    rw [State.input, State.accept_len, hn]
    exact hraw
  obtain ⟨t, ht⟩ := (State.accept_atPass r hwf s.ports.inLen s.ports.outCap).completes raw.length
    (by rw [List.length_drop, hinput]; exact Nat.sub_le _ _)
  rw [hinput] at ht
  exact ⟨_, t, haccept, rfl, ht⟩

/-- Settles O37: the result in `DONE` is that of the loop of R110. -/
theorem encodeComputesEnc : Obligations.EncodeComputesEnc := by
  intro s raw b r w hop hlen hin hraw hwf
  obtain ⟨s₁, t, hstep, hout, ht⟩ := encode_completes b r w hop hlen hin hraw hwf
  have hbytes : t.out.bytes .out t.wpos.toNat = (enc raw s.ports.outCap.toNat).1 := congrArg Prod.fst ht.result_eq
  refine ⟨s₁, _, t, hstep, ht.ends, hbytes, ?_, ?_, fun a ha => hout ▸ ht.past a ha⟩
  · rw [← hbytes, Memory.length_bytes]
  · rw [← ht.result_eq]
    simp [State.result]

/-! ## The number of steps (R124) -/

/-- With room for every Pair, each byte of the input takes a step and each Pair three more. -/
theorem encodeSteps_of_le (raw : List Byte) (room : Nat) (h : pairCount raw ≤ room) :
    encodeSteps room (full raw) = raw.length + 3 * pairCount raw + 1 := by
  induction raw using run_induction generalizing room with
  | nil => exact encodeSteps_nil room
  | run b n tail hrun ih =>
    rw [pairCount_run hrun] at h ⊢
    obtain ⟨room, rfl⟩ := Nat.exists_eq_add_of_le' (Nat.le_of_add_left_le h)
    rw [full_run hrun, encodeSteps, hrun.count_toNat, ih room (by omega), List.length_append, List.length_replicate]
    omega

/-- With less room than Pairs, the steps are those of the Pairs that have room and of the one after them. -/
theorem encodeSteps_of_lt (raw : List Byte) (room : Nat) (h : room < pairCount raw) :
    encodeSteps room (full raw) =
      (expandPairs ((full raw).take (2 * room))).length + 3 * room + ((full raw).getD (2 * room + 1) 0).toNat + 2 := by
  induction raw using run_induction generalizing room with
  | nil => cases h
  | run b n tail hrun ih =>
    rw [pairCount_run hrun] at h
    rw [full_run hrun]
    cases room with
    | zero => simp [encodeSteps, expandPairs]
    | succ room =>
      rw [encodeSteps, ih room (by omega), Nat.mul_succ, List.take_succ_cons, List.take_succ_cons, expandPairs_cons,
        List.length_append, List.length_replicate]
      simp only [List.getD_cons_succ]
      omega

/-- At most four steps for each byte of the input, and the one that ends the operation. -/
theorem encodeSteps_le (raw : List Byte) (room : Nat) : encodeSteps room (full raw) ≤ 4 * raw.length + 1 := by
  induction raw using run_induction generalizing room with
  | nil => exact (encodeSteps_nil room).le
  | run b n tail hrun ih =>
    have hpos := hrun.pos
    rw [full_run hrun, List.length_append, List.length_replicate]
    cases room with
    | zero =>
      rw [encodeSteps, hrun.count_toNat]
      omega
    | succ room =>
      have := ih room
      rw [encodeSteps, hrun.count_toNat]
      omega

/-- Settles O39: which of the two counts of steps holds is told by the flag, since it is the status of `enc`. -/
theorem encodeStepCount : Obligations.EncodeStepCount := by
  intro s raw b r w hop hlen hin hraw hwf
  obtain ⟨s₁, t, hstep, -, ht⟩ := encode_completes b r w hop hlen hin hraw hwf
  have hflag : t.capExceeded = true ↔ s.ports.outCap.toNat / 2 < pairCount raw := by
    rw [← enc_exceeded_iff, ← ht.result_eq]
    simp [State.result]
  refine ⟨s₁, _, t, hstep, ht.ends, fun hok => ?_, fun hex => ?_, ?_⟩
  · rw [encodeSteps_of_le raw _ (by rw [← Nat.not_lt, ← hflag, hok]; decide)]
  · have hlt := hflag.1 hex
    rw [encodeSteps_of_lt raw _ hlt, enc_eq, Nat.min_eq_right (Nat.le_of_lt hlt)]
  · have := encodeSteps_le raw (s.ports.outCap.toNat / 2)
    omega

end Sys2Proof.Machine

/-! The decoder's micro-operations one by one (42_decoder.md R142-R145), the dangling byte and the Pair of count 0 in the block
(R146, R148), and the pure decoder (R140, R141, R154). A payload is taken apart Pair by Pair, by `List.twoStepInduction`. -/

namespace Sys2Proof.Machine

variable {s t u : State}

/-! ## The results of DEC_READ_V, DEC_READ_C, DEC_CHECK and DEC_EXPAND -/

/-- Settles O20: the test for the end of the payload over the naturals. -/
theorem decReadVResult : Obligations.DecReadVResult := by
  refine ⟨rfl, fun s hscan => ⟨?_, fun f => ?_⟩⟩
  · simp only [exec, execDecReadV, noPairLeft_iff s hscan]
    split <;> rfl
  · simp only [State.inAccess, State.outAccess, f, noPairLeft_iff s hscan, and_self]

/-- The count byte of a whole Pair at `rpos` is the one behind the value byte. -/
theorem State.countByte_eq (h : s.rpos.toNat + 2 ≤ s.len.toNat) : s.countByte = s.inp.read .inp (s.rpos.toNat + 1) := by
  have hr : (s.rpos + 1).toNat = s.rpos.toNat + 1 := word_add_toNat_of_le (b := 1) (Nat.le_of_succ_le h)
  exact congrArg (s.inp.read .inp) hr

/-- Settles O21: the address after `rpos` does not wrap. -/
theorem decReadCResult : Obligations.DecReadCResult := by
  refine ⟨rfl, fun s hpair => ⟨?_, fun f => ?_⟩⟩
  · simp only [exec, execDecReadC, State.countByte_eq hpair]
  · simp only [State.inAccess, State.outAccess, f, ← word_add_ofNat s.rpos 1]
    exact ⟨rfl, trivial⟩

/-- Settles O22: the test for room over the naturals. -/
theorem decCheckResult : Obligations.DecCheckResult := by
  refine ⟨rfl, fun s hwrite _ => ⟨?_, fun f => ?_⟩⟩
  · simp only [exec, execDecCheck, noRoomForRun_iff s hwrite, ← word_add_ofNat s.rpos 2]
    split <;> rfl
  · simp only [State.inAccess, State.outAccess, f, and_self]

theorem byte_eq_zero_iff (c : Byte) : c = 0 ↔ c.toNat = 0 := BitVec.toNat_inj.symm

theorem byte_sub_one {c : Byte} (h : c.toNat ≠ 0) : c - 1 = BitVec.ofNat 8 (c.toNat - 1) := by
  bv_omega

/-- Settles O23: the test for a copy left over the naturals; with one left its number falls by 1 without a wrap. -/
theorem decExpandResult : Obligations.DecExpandResult := by
  refine ⟨rfl, fun s _ => ⟨?_, fun f => ?_⟩⟩
  · simp only [exec, execDecExpand, byte_eq_zero_iff]
    split
    next => rfl
    next hleft =>
      rw [byte_sub_one hleft, ← word_add_ofNat s.wpos 1]
      rfl
  · simp only [State.inAccess, State.outAccess, f, byte_eq_zero_iff, State.valueAddr, and_self]

/-! ## The dangling byte and the Pair of count 0 (R146, R148) -/

/-- `dec` reads a payload Pair by Pair: behind whole Pairs, endings that the loop takes alike give the same result. -/
theorem decLoop_append_congr {cap : Nat} {back back' : List Byte}
    (h : ∀ out, out.length ≤ cap → decLoop cap back out = decLoop cap back' out) (front : List Byte)
    (heven : front.length % 2 = 0) (out : List Byte) (hout : out.length ≤ cap) :
    decLoop cap (front ++ back) out = decLoop cap (front ++ back') out := by
  induction front using List.twoStepInduction generalizing out with
  | nil => exact h out hout
  | singleton x => cases heven
  | cons_cons v c rest ih _ =>
    simp only [List.cons_append, decLoop]
    split
    next hfits =>
      exact ih ((Nat.add_mod_right rest.length 2).symm.trans heven) _ (by rwa [List.length_append, List.length_replicate])
    next => rfl

/-- Settles O47: behind whole Pairs the loop ends at one byte as at none; the block finds fewer than two bytes left. -/
theorem danglingByteIsIgnored : Obligations.DanglingByteIsIgnored := by
  refine ⟨fun payload x cap heven => ?_, fun x cap => rfl, fun s f r hlast => ?_⟩
  · have h := decLoop_append_congr (cap := cap) (back := [x]) (back' := []) (fun _ _ => rfl) payload heven []
      (Nat.zero_le cap)
    rwa [List.append_nil] at h
  · have hend : s.noPairLeft = true := (noPairLeft_iff s (by omega)).2 (by omega)
    exact ⟨by simp [State.inAccess, f, hend], (blockStep_iff _ _).2 (.payloadEnd r f hend)⟩

/-- A Pair of count 0 at the front of the payload leaves the loop as it is. -/
theorem decLoop_zero_count (cap : Nat) (v : Byte) (rest out : List Byte) (h : out.length ≤ cap) :
    decLoop cap (v :: 0 :: rest) out = decLoop cap rest out := by
  rw [decLoop, if_pos (by simpa using h)]
  simp

/-- There is room for a run of count 0, however little room there is. -/
theorem State.noRoomForRun_of_zero (z : s.pairCnt = 0) : s.noRoomForRun = false := by
  simp [State.noRoomForRun, zextW, z]

/-- Settles O48: the loop goes on as without the Pair; the block takes the rows `consume` and `runDone`. -/
theorem zeroCountPairIsSkipped : Obligations.ZeroCountPairIsSkipped := by
  refine ⟨fun front back v cap heven => ?_, fun s f r z _ => ?_⟩
  · exact decLoop_append_congr (decLoop_zero_count cap v back) front heven [] (Nat.zero_le cap)
  · have hconsume := BlockMove.consume r f (State.noRoomForRun_of_zero z)
    have hdone := BlockMove.runDone (s := { s with expRem := s.pairCnt, rpos := s.rpos + 2, fsm := .decExpand }) r rfl z
    obtain ⟨hrun, -⟩ := hconsume.runsTo (by simp [f]) (hdone.runsTo Fsm.noConfusion (State.runsTo_refl _))
    rw [hrun, z, ← word_add_ofNat s.rpos 2]
    rfl

/-! ## The pure decoder in closed form (R141) -/

/-- How many Pairs at the front of a payload have runs that fit into the room, one after another. -/
def fittingPairs : Nat → List Byte → Nat
  | room, _ :: c :: rest => if c.toNat ≤ room then fittingPairs (room - c.toNat) rest + 1 else 0
  | _, _ => 0

theorem fittingPairs_le (room : Nat) (payload : List Byte) : fittingPairs room payload ≤ payload.length / 2 := by
  induction payload using List.twoStepInduction generalizing room with
  | nil => exact Nat.zero_le _
  | singleton x => exact Nat.zero_le _
  | cons_cons v c rest ih _ =>
    have := ih (room - c.toNat)
    simp only [fittingPairs, List.length_cons]
    split <;> omega

/-- One Pair more, taken off the front of a payload. -/
theorem take_pair_succ (v c : Byte) (rest : List Byte) (k : Nat) :
    (v :: c :: rest).take (2 * (k + 1)) = v :: c :: rest.take (2 * k) := rfl

/-- The runs of the fitting Pairs fit together. -/
theorem length_expandPairs_fitting (room : Nat) (payload : List Byte) :
    (expandPairs (payload.take (2 * fittingPairs room payload))).length ≤ room := by
  induction payload using List.twoStepInduction generalizing room with
  | nil => exact Nat.zero_le room
  | singleton x => exact Nat.zero_le room
  | cons_cons v c rest ih _ =>
    rw [fittingPairs]
    split
    next hfits =>
      rw [take_pair_succ, expandPairs_cons, List.length_append, List.length_replicate]
      have := ih (room - c.toNat)
      omega
    next => exact Nat.zero_le room

/-- With the run of the Pair after the fitting ones the expansion is too long. -/
theorem lt_length_expandPairs_succ (room : Nat) (payload : List Byte) (h : fittingPairs room payload < payload.length / 2) :
    room < (expandPairs (payload.take (2 * (fittingPairs room payload + 1)))).length := by
  induction payload using List.twoStepInduction generalizing room with
  | nil => cases h
  | singleton x => simp at h
  | cons_cons v c rest ih _ =>
    rw [fittingPairs] at h ⊢
    rw [take_pair_succ, expandPairs_cons, List.length_append, List.length_replicate]
    split
    next hfits =>
      rw [if_pos hfits, List.length_cons, List.length_cons] at h
      have := ih (room - c.toNat) (by omega)
      omega
    next hlong => omega

/-- The loop of R140 writes the runs of the fitting Pairs, and stops for want of room exactly if a Pair is left. -/
theorem decLoop_eq (cap : Nat) (payload out : List Byte) (hout : out.length ≤ cap) :
    decLoop cap payload out =
      (out ++ expandPairs (payload.take (2 * fittingPairs (cap - out.length) payload)),
        if fittingPairs (cap - out.length) payload < payload.length / 2 then .capacityExceeded else .ok) := by
  induction payload using List.twoStepInduction generalizing out with
  | nil => simp [decLoop, fittingPairs, expandPairs]
  | singleton x => simp [decLoop, fittingPairs, expandPairs]
  | cons_cons v c rest ih _ =>
    have hhalf : (v :: c :: rest).length / 2 = rest.length / 2 + 1 := Nat.add_div_right _ Nat.two_pos
    rw [decLoop, fittingPairs, hhalf]
    by_cases hfits : out.length + c.toNat ≤ cap
    · have hlen : (out ++ List.replicate c.toNat v).length = out.length + c.toNat := by simp
      rw [if_pos hfits, if_pos (Nat.le_sub_of_add_le' hfits), ih _ (hlen.trans_le hfits), hlen, take_pair_succ,
        expandPairs_cons, List.append_assoc, Nat.sub_sub]
      simp only [Nat.add_lt_add_iff_right]
    · rw [if_neg hfits, if_neg (by omega : ¬ c.toNat ≤ cap - out.length)]
      simp [expandPairs]

theorem dec_eq (payload : List Byte) (cap : Nat) :
    dec payload cap =
      (expandPairs (payload.take (2 * fittingPairs cap payload)),
        if fittingPairs cap payload < payload.length / 2 then .capacityExceeded else .ok) :=
  decLoop_eq cap payload [] (Nat.zero_le cap)

theorem dec_output (payload : List Byte) (cap : Nat) :
    (dec payload cap).1 = expandPairs (payload.take (2 * fittingPairs cap payload)) :=
  congrArg Prod.fst (dec_eq payload cap)

theorem dec_exceeded_iff (payload : List Byte) (cap : Nat) :
    (dec payload cap).2 = .capacityExceeded ↔ fittingPairs cap payload < payload.length / 2 := by
  rw [dec_eq]
  simp

/-- With room for the whole expansion the loop writes it and ends with `OK`. -/
theorem decLoop_of_fits (cap : Nat) (payload out : List Byte) (h : out.length + (expandPairs payload).length ≤ cap) :
    decLoop cap payload out = (out ++ expandPairs payload, .ok) := by
  induction payload using List.twoStepInduction generalizing out with
  | nil => simp [decLoop, expandPairs]
  | singleton x => simp [decLoop, expandPairs]
  | cons_cons v c rest ih _ =>
    rw [expandPairs_cons, List.length_append, List.length_replicate] at h
    rw [decLoop, if_pos (by omega), ih _ (by rw [List.length_append, List.length_replicate]; omega), expandPairs_cons,
      List.append_assoc]

theorem dec_of_fits {payload : List Byte} {cap : Nat} (h : (expandPairs payload).length ≤ cap) :
    dec payload cap = (expandPairs payload, .ok) :=
  decLoop_of_fits cap payload [] (by simpa using h)

/-- Settles O46: the number of Pairs is that of `fittingPairs`, and each fact is one of its lemmas. -/
theorem decodingFacts : Obligations.DecodingFacts := by
  intro payload cap
  have hout := dec_output payload cap
  exact ⟨fittingPairs cap payload, fittingPairs_le cap payload, hout, hout ▸ length_expandPairs_fitting cap payload,
    lt_length_expandPairs_succ cap payload, dec_exceeded_iff payload cap, dec_of_fits⟩

/-! ## The round trip (R154) -/

/-- The full encoding decodes to the input, with room for it. -/
theorem dec_full {raw : List Byte} {cap : Nat} (h : raw.length ≤ cap) : dec (full raw) cap = (raw, .ok) := by
  rw [dec_of_fits (by rwa [expandPairs_full]), expandPairs_full]

/-- A run is one Pair also where the rest of the input is cut off. -/
theorem PairRun.take {b : Byte} {n : Nat} {tail : List Byte} (h : PairRun b n tail) (k : Nat) : PairRun b n (tail.take k) where
  pos := h.pos
  le := h.le
  maximal := h.maximal.imp_right fun hne => by
    rw [List.head?_take]
    split
    · simp
    · exact hne

/-- The Pairs at the front of a full encoding, but not all, are the full encoding of a proper initial part of the input. -/
theorem exists_full_eq_take (raw : List Byte) (k : Nat) (hk : k < pairCount raw) :
    ∃ n, n < raw.length ∧ (full raw).take (2 * k) = full (raw.take n) := by
  induction raw using run_induction generalizing k with
  | nil => cases hk
  | run b n tail hrun ih =>
    have hpos := hrun.pos
    cases k with
    | zero => exact ⟨0, by rw [List.length_append, List.length_replicate]; omega, rfl⟩
    | succ k =>
      rw [pairCount_run hrun] at hk
      obtain ⟨m, hm, htake⟩ := ih k (by omega)
      refine ⟨n + m, by rw [List.length_append, List.length_replicate]; omega, ?_⟩
      have hcut : (List.replicate n b ++ tail).take (n + m) = List.replicate n b ++ tail.take m := by
        simp [List.take_append]
      rw [hcut, full_run (hrun.take m), full_run hrun, take_pair_succ, htake]

/-- Settles O49: with room `enc` gives the full encoding, and without it that of a proper initial part of the input. -/
theorem decodingInvertsEncoding : Obligations.DecodingInvertsEncoding := by
  intro raw c₁ c₂
  refine ⟨dec_full (Nat.le_refl _), fun h₁ h₂ => ?_, fun hex => ?_⟩
  · obtain ⟨-, -, -, -, hall, -⟩ := encodingFacts raw c₁
    rw [hall h₁]
    exact dec_full h₂
  · have hlt := (enc_exceeded_iff raw c₁).1 hex
    obtain ⟨n, hn, htake⟩ := exists_full_eq_take raw (c₁ / 2) hlt
    have hout : (enc raw c₁).1 = full (raw.take n) := by rw [enc_eq, Nat.min_eq_right (Nat.le_of_lt hlt), htake]
    exact ⟨n, hn, hout ▸ dec_full (List.length_take_le' n raw), hout⟩

end Sys2Proof.Machine

/-! A whole decode (42_decoder.md R152, R153, R156): the block makes one pass of R140 for each Pair, so that the induction over the
Pairs of the payload gives the result and the number of steps at once. -/

namespace Sys2Proof.Machine

variable {s t u : State}

/-! ## One pass -/

/-- The state is about to make a pass of R140. -/
structure State.AtPair (s : State) : Prop where
  rst : s.ports.rst = false
  fsm : s.fsm = .decReadV
  flag : s.capExceeded = false
  scan : s.rpos.toNat ≤ s.len.toNat
  write : s.wpos.toNat ≤ s.cap.toNat
  outWf : s.out.wf = true

/-- The state with the Pair of `c` bytes `v` read. -/
def State.withPair (s : State) (v c : Byte) : State := { s with fsm := .decCheck, pairVal := v, pairCnt := c }

/-- The state after a pass of R140 that expands the Pair of `c` bytes `v`. -/
def State.afterExpansion (s : State) (v c : Byte) : State :=
  { s.withPair v c with
    fsm := .decReadV
    out := s.out.writeBytes s.wpos.toNat (List.replicate c.toNat v)
    wpos := BitVec.ofNat 64 (s.wpos.toNat + c.toNat)
    rpos := BitVec.ofNat 64 (s.rpos.toNat + 2)
    expRem := 0 }

@[simp] theorem State.afterExpansion_input (s : State) (v c : Byte) : (s.afterExpansion v c).input = s.input := rfl

/-- A Pair that is left is inside the payload. -/
theorem State.pair_le_len {v c : Byte} {rest : List Byte} (h : s.input.drop s.rpos.toNat = v :: c :: rest) :
    s.rpos.toNat + 2 ≤ s.len.toNat := by
  have hlen := congrArg List.length h
  rw [List.length_drop, s.length_input, List.length_cons, List.length_cons] at hlen
  omega

/-- The Pair at `rpos` is read in two steps (R142, R143). -/
theorem State.AtPair.read_runsTo (h : s.AtPair) {v c : Byte} {rest : List Byte}
    (hleft : s.input.drop s.rpos.toNat = v :: c :: rest) : s.runsTo 2 (s.withPair v c) := by
  have hpair := State.pair_le_len hleft
  rw [s.drop_input (by omega), s.drop_input (by omega)] at hleft
  obtain ⟨hv, hrest⟩ := List.cons.inj hleft
  obtain ⟨hc, -⟩ := List.cons.inj hrest
  have hwhole : s.noPairLeft = false := by
    rw [← Bool.not_eq_true, noPairLeft_iff s h.scan]
    omega
  have hvalue := BlockMove.readValue h.rst h.fsm hwhole
  have hcount := BlockMove.readCount (s := { s with pairVal := s.scanByte, fsm := .decReadC }) h.rst rfl
  have hbytes : State.countByte { s with pairVal := s.scanByte, fsm := .decReadC } = c := (State.countByte_eq hpair).trans hc
  rw [hbytes] at hcount
  subst hv
  exact hvalue.runsTo (by simp [h.fsm]) (hcount.runsTo Fsm.noConfusion (State.runsTo_refl _))

/-- With room for its run the Pair read is consumed and expanded (R144, R145). -/
theorem State.AtPair.consume_runsTo (h : s.AtPair) (v c : Byte) (hroom : s.wpos.toNat + c.toNat ≤ s.cap.toNat) :
    (s.withPair v c).runsTo (c.toNat + 2) (s.afterExpansion v c) := by
  have hcap := s.cap.isLt
  have hfits : (s.withPair v c).noRoomForRun = false := by
    rw [← Bool.not_eq_true, noRoomForRun_iff (s.withPair v c) h.write]
    exact Nat.not_lt.2 (Nat.le_sub_of_add_le' hroom)
  have hconsume := BlockMove.consume (s := s.withPair v c) h.rst rfl hfits
  have hexpand := expand_runsTo c.toNat
    { s.withPair v c with expRem := c, rpos := s.rpos + 2, fsm := .decExpand } h.rst rfl rfl
    (show s.wpos.toNat + c.toNat < 2 ^ 64 by omega)
  have hsteps := hconsume.runsTo Fsm.noConfusion hexpand
  rw [State.afterExpansion.eq_def, ← word_add_ofNat s.rpos 2]
  exact hsteps

/-- A pass leads to the next one, with the Pair consumed and its run written. -/
theorem State.AtPair.afterExpansion (h : s.AtPair) (v c : Byte) (hpair : s.rpos.toNat + 2 ≤ s.len.toNat)
    (hroom : s.wpos.toNat + c.toNat ≤ s.cap.toNat) :
    (s.afterExpansion v c).AtPair ∧ (s.afterExpansion v c).rpos.toNat = s.rpos.toNat + 2 ∧
      (s.afterExpansion v c).wpos.toNat = s.wpos.toNat + c.toNat := by
  have hlen := s.len.isLt
  have hcap := s.cap.isLt
  have hr : (s.afterExpansion v c).rpos.toNat = s.rpos.toNat + 2 := Nat.mod_eq_of_lt (by omega)
  have hw : (s.afterExpansion v c).wpos.toNat = s.wpos.toNat + c.toNat := Nat.mod_eq_of_lt (by omega)
  refine ⟨⟨h.rst, rfl, h.flag, hr.trans_le hpair, hw.trans_le hroom, ?_⟩, hr, hw⟩
  exact Memory.writeBytes_wf _ _ _ (by rw [List.length_replicate]; omega) h.outWf

/-- The run of a pass is behind what was written before, and what is past it is as it was. -/
theorem State.AtPair.out_afterExpansion (h : s.AtPair) (v c : Byte) (hroom : s.wpos.toNat + c.toNat ≤ s.cap.toNat) :
    (s.afterExpansion v c).out.bytes .out (s.wpos.toNat + c.toNat) =
        s.out.bytes .out s.wpos.toNat ++ List.replicate c.toNat v ∧
      ∀ a : Nat, s.wpos.toNat + c.toNat ≤ a → (s.afterExpansion v c).out.read .out a = s.out.read .out a := by
  have hl : (List.replicate c.toNat v).length = c.toNat := List.length_replicate
  have hfits : s.wpos.toNat + (List.replicate c.toNat v).length ≤ 2 ^ 64 :=
    Nat.le_trans (hl.symm ▸ hroom) (Nat.le_of_lt s.cap.isLt)
  refine ⟨?_, fun a ha => ?_⟩
  · have hbytes := Memory.bytes_writeBytes_append .out s.out s.wpos.toNat (List.replicate c.toNat v) hfits h.outWf
    rwa [hl] at hbytes
  · refine (Memory.read_writeBytes .out _ _ _ hfits h.outWf a).trans ?_
    rw [if_pos (by omega), List.getD_eq_default _ _ (by omega)]

/-- With room for the run of the next Pair the block makes one pass of R140. -/
theorem State.AtPair.pass (h : s.AtPair) {v c : Byte} {rest : List Byte}
    (hleft : s.input.drop s.rpos.toNat = v :: c :: rest) (hroom : s.wpos.toNat + c.toNat ≤ s.cap.toNat) :
    ∃ u, u.AtPair ∧ s.runsTo (c.toNat + 4) u ∧ u.cap = s.cap ∧ u.input.drop u.rpos.toNat = rest ∧
      u.wpos.toNat = s.wpos.toNat + c.toNat ∧
      u.out.bytes .out u.wpos.toNat = s.out.bytes .out s.wpos.toNat ++ List.replicate c.toNat v ∧
      ∀ a : Nat, u.wpos.toNat ≤ a → u.out.read .out a = s.out.read .out a := by
  obtain ⟨hnext, hr, hw⟩ := h.afterExpansion v c (State.pair_le_len hleft) hroom
  obtain ⟨hout, hpast⟩ := h.out_afterExpansion v c hroom
  have hsteps := State.runsTo_trans (h.read_runsTo hleft) (h.consume_runsTo v c hroom)
  refine ⟨s.afterExpansion v c, hnext, ?_, rfl, ?_, hw, ?_, ?_⟩
  · rwa [Nat.add_comm 2, Nat.add_assoc] at hsteps
  · rw [hr, State.afterExpansion_input, ← List.drop_drop, hleft]
    rfl
  · rw [hw, hout]
  · rwa [hw]

/-! ## The passes of R140 -/

/-- The steps of a decode from `DEC_READ_V` on, by the room, in bytes, and the payload that is left: four and its count for a Pair
that is expanded, three for the one that has no room, one for the end of the payload (R153). -/
def decodeSteps : Nat → List Byte → Nat
  | room, _ :: c :: rest => if c.toNat ≤ room then c.toNat + 4 + decodeSteps (room - c.toNat) rest else 3
  | _, _ => 1

/-- With fewer than two bytes left the operation ends in one step (R142). -/
theorem State.AtPair.completes_at_end (h : s.AtPair) (hleft : (s.input.drop s.rpos.toNat).length < 2) :
    s.Completes 1 (s.goto .done) (s.out.bytes .out s.wpos.toNat, .ok) := by
  rw [List.length_drop, s.length_input] at hleft
  have hmove := BlockMove.payloadEnd h.rst h.fsm ((noPairLeft_iff s h.scan).2 hleft)
  refine ⟨hmove.endsIn (by simp [h.fsm]) (State.endsIn_zero rfl), ?_, Nat.le_refl _, fun _ _ => rfl⟩
  simp [State.result, State.written, h.flag]

/-- Without room for the run of the next Pair the operation ends after the Pair is read (R144). -/
theorem State.AtPair.completes_without_room (h : s.AtPair) {v c : Byte} {rest : List Byte}
    (hleft : s.input.drop s.rpos.toNat = v :: c :: rest) (hroom : ¬ s.wpos.toNat + c.toNat ≤ s.cap.toNat) :
    s.Completes 3 (s.withPair v c).raiseCapacityExceeded (s.out.bytes .out s.wpos.toNat, .capacityExceeded) := by
  have hfull : (s.withPair v c).noRoomForRun = true :=
    (noRoomForRun_iff (s.withPair v c) h.write).2 (Nat.sub_lt_left_of_lt_add h.write (Nat.lt_of_not_le hroom))
  have hraise := BlockMove.raiseDec (s := s.withPair v c) h.rst rfl hfull
  have hend := State.runsTo.endsIn (h.read_runsTo hleft) (hraise.endsIn Fsm.noConfusion (State.endsIn_zero rfl))
  exact ⟨hend, rfl, Nat.le_refl _, fun _ _ => rfl⟩

/-- The block makes the passes of R140: from before a pass on, the operation ends with the result of the loop. -/
theorem State.AtPair.completes (h : s.AtPair) {payload : List Byte} (hleft : s.input.drop s.rpos.toNat = payload) :
    ∃ t, s.Completes (decodeSteps (s.cap.toNat - s.wpos.toNat) payload) t
      (decLoop s.cap.toNat payload (s.out.bytes .out s.wpos.toNat)) := by
  induction payload using List.twoStepInduction generalizing s with
  | nil => exact ⟨_, h.completes_at_end (by simp [hleft])⟩
  | singleton x => exact ⟨_, h.completes_at_end (by simp [hleft])⟩
  | cons_cons v c rest ih _ =>
    rw [decLoop, decodeSteps, Memory.length_bytes]
    by_cases hroom : s.wpos.toNat + c.toNat ≤ s.cap.toNat
    · obtain ⟨u, hnext, hsteps, hcap, hrest, hw, hout, hpast⟩ := h.pass hleft hroom
      obtain ⟨t, ht⟩ := ih hnext hrest
      rw [hout, hcap, hw, Nat.sub_add_eq] at ht
      rw [if_pos hroom, if_pos (Nat.le_sub_of_add_le' hroom)]
      exact ⟨t, ht.after hsteps (hw ▸ Nat.le_add_right _ _) hpast⟩
    · have hwrite := h.write
      rw [if_neg hroom, if_neg (by omega)]
      exact ⟨_, h.completes_without_room hleft hroom⟩

/-! ## The whole decode -/

/-- The accepting step of a decode leads to the first pass (R91). -/
theorem State.accept_atPair (r : s.ports.rst = false) (hwf : s.out.wf = true) (n c : Word) : (s.accept 1 n c).AtPair :=
  ⟨r, rfl, rfl, Nat.zero_le _, Nat.zero_le _, hwf⟩

/-- An accepted `DECODE` ends with `dec` of the payload, after a number of steps that the Pairs of the payload say. -/
theorem decode_completes {payload : List Byte} (b : s.busy = false) (r : s.ports.rst = false) (w : s.ports.start = true)
    (hop : s.ports.op = 1) (hlen : payload.length < 2 ^ 64) (hin : s.ports.inLen = BitVec.ofNat 64 payload.length)
    (hpayload : s.inp.bytes .inp payload.length = payload) (hwf : s.out.wf = true) :
    ∃ s₁ t, blockStep s = .next s₁ ∧ s₁.out = s.out ∧
      s₁.Completes (decodeSteps s.ports.outCap.toNat payload) t (dec payload s.ports.outCap.toNat) := by
  have haccept := blockStep_accept s b r w
  rw [hop] at haccept
  have hn : s.ports.inLen.toNat = payload.length := by rw [hin, BitVec.toNat_ofNat, Nat.mod_eq_of_lt hlen]
  have hinput : (s.accept 1 s.ports.inLen s.ports.outCap).input = payload := by
    rw [State.input, State.accept_len, hn]
    exact hpayload
  obtain ⟨t, ht⟩ := (State.accept_atPair r hwf s.ports.inLen s.ports.outCap).completes hinput
  exact ⟨_, t, haccept, rfl, ht⟩

/-- What the registers of the state at the end say of the result. -/
theorem State.Completes.registers {r : List Byte × Status} {k : Nat} (h : s.Completes k t r) :
    t.out.bytes .out t.wpos.toNat = r.1 ∧ t.wpos.toNat = r.1.length ∧ (t.capExceeded = true ↔ r.2 = .capacityExceeded) := by
  have hbytes : t.out.bytes .out t.wpos.toNat = r.1 := congrArg Prod.fst h.result_eq
  refine ⟨hbytes, by rw [← hbytes, Memory.length_bytes], ?_⟩
  rw [← h.result_eq]
  simp [State.result]

/-- Settles O38: the result in `DONE` is that of the loop of R140. -/
theorem decodeComputesDec : Obligations.DecodeComputesDec := by
  intro s payload b r w hop hlen hin hpayload hwf
  obtain ⟨s₁, t, hstep, hout, ht⟩ := decode_completes b r w hop hlen hin hpayload hwf
  obtain ⟨hbytes, hw, hflag⟩ := ht.registers
  exact ⟨s₁, _, t, hstep, ht.ends, hbytes, hw, hflag, fun a ha => hout ▸ ht.past a ha⟩

/-! ## The number of steps (R153) -/

/-- Each byte of the result takes a step and each Pair expanded four more; one step finds the end of the payload, three a Pair whose
run does not fit. -/
theorem decodeSteps_eq (room : Nat) (payload : List Byte) :
    decodeSteps room payload =
      (expandPairs (payload.take (2 * fittingPairs room payload))).length + 4 * fittingPairs room payload +
        if fittingPairs room payload < payload.length / 2 then 3 else 1 := by
  induction payload using List.twoStepInduction generalizing room with
  | nil => simp [decodeSteps, fittingPairs, expandPairs]
  | singleton x => simp [decodeSteps, fittingPairs, expandPairs]
  | cons_cons v c rest ih _ =>
    have hhalf : (v :: c :: rest).length / 2 = rest.length / 2 + 1 := Nat.add_div_right _ Nat.two_pos
    rw [decodeSteps, fittingPairs, hhalf]
    split
    next hfits =>
      rw [ih, take_pair_succ, expandPairs_cons, List.length_append, List.length_replicate]
      simp only [Nat.add_lt_add_iff_right]
      omega
    next => simp [expandPairs]

/-- At most 259 steps for each Pair, and the one that ends the operation. -/
theorem decodeSteps_le (room : Nat) (payload : List Byte) : decodeSteps room payload ≤ 259 * (payload.length / 2) + 1 := by
  induction payload using List.twoStepInduction generalizing room with
  | nil => exact Nat.le_refl 1
  | singleton x => exact Nat.le_add_left 1 _
  | cons_cons v c rest ih _ =>
    have hc := c.isLt
    have := ih (room - c.toNat)
    simp only [decodeSteps, List.length_cons]
    split <;> omega

/-- Settles O40: the flag tells whether a Pair is left, and with it how many steps the last one takes. -/
theorem decodeStepCount : Obligations.DecodeStepCount := by
  intro s payload b r w hop hlen hin hpayload hwf
  obtain ⟨s₁, t, hstep, -, ht⟩ := decode_completes b r w hop hlen hin hpayload hwf
  obtain ⟨-, hw, hflag⟩ := ht.registers
  have hle := fittingPairs_le s.ports.outCap.toNat payload
  have hsteps := decodeSteps_eq s.ports.outCap.toNat payload
  rw [dec_exceeded_iff] at hflag
  rw [dec_output] at hw
  refine ⟨s₁, _, t, hstep, ht.ends, fun hok => ?_, fun hex => ?_, Nat.succ_le_succ (decodeSteps_le _ payload)⟩
  · have hall := hflag.not.1 (by simp [hok])
    rw [if_neg hall] at hsteps
    omega
  · have hlt := hflag.1 hex
    rw [if_pos hlt] at hsteps
    exact ⟨_, by omega, hw.symm, lt_length_expandPairs_succ _ payload hlt, by omega⟩

end Sys2Proof.Machine

/-! The container's header (43_host_container.md R174), the command line (R179), and the two host sequences up to their wait and
from `done` on (R175, R176): one equation for each way a sequence begins and one for its end. -/

namespace Sys2Proof.Machine

variable {s t : State}

/-! ## The header (R174) -/

theorem leBytes_getD {n j : Nat} (h : j < n) (v : Nat) : (leBytes n v).getD j 0 = BitVec.ofNat 8 (v / 256 ^ j) := by
  induction j generalizing n v with
  | zero =>
    obtain ⟨n, rfl⟩ := Nat.exists_eq_add_of_lt h
    simp [leBytes]
  | succ j ih =>
    obtain ⟨n, rfl⟩ := Nat.exists_eq_add_of_le' (Nat.one_le_of_lt h)
    rw [leBytes, List.getD_cons_succ, ih (Nat.lt_of_succ_lt_succ h), Nat.div_div_eq_div_mul, ← Nat.pow_succ']

/-- Byte `j` of a word, counted from the least significant one, is its bits `8j` to `8j + 7`. -/
theorem word_leBytes_getD (size : Word) {j : Nat} (h : j < 8) :
    (leBytes Config.hdrBytes size.toNat).getD j 0 = size.extractLsb' (8 * j) 8 := by
  rw [leBytes_getD (n := Config.hdrBytes) h, BitVec.extractLsb', Nat.shiftRight_eq_div_pow, Nat.pow_mul]

@[simp] theorem length_headerBytes (order : HdrOrder) (size : Word) : (headerBytes order size).length = 8 := by
  cases order with
  | little => exact length_leBytes _ _
  | big => exact List.length_reverse.trans (length_leBytes _ _)

theorem ofNat_leValue_leBytes (size : Word) : BitVec.ofNat 64 (leValue (leBytes Config.hdrBytes size.toNat)) = size := by
  have hlt : size.toNat < 256 ^ Config.hdrBytes := size.isLt
  rw [leValue_leBytes, Nat.mod_eq_of_lt hlt, BitVec.ofNat_toNat, BitVec.setWidth_eq]

@[simp] theorem headerValue_headerBytes (order : HdrOrder) (size : Word) : headerValue order (headerBytes order size) = size := by
  cases order with
  | little => exact ofNat_leValue_leBytes size
  | big =>
    rw [headerValue, headerBytes, List.reverse_reverse]
    exact ofNat_leValue_leBytes size

/-- Settles O50: byte `j` of the big-endian header is byte `7 - j` of the little-endian one. -/
theorem headerHoldsTheSize : Obligations.HeaderHoldsTheSize := by
  refine ⟨rfl, fun size => ⟨fun order => ?_, fun j hj => ⟨word_leBytes_getD size hj, ?_⟩⟩⟩
  · exact ⟨headerValue_headerBytes order size, length_headerBytes order size⟩
  · have hlen : (leBytes Config.hdrBytes size.toNat).length = 8 := length_leBytes _ _
    rw [headerBytes, List.getD_reverse _ (by omega), hlen, show 56 - 8 * j = 8 * (8 - 1 - j) by omega]
    exact word_leBytes_getD size (by omega)

@[simp] theorem containerSize_append (size : Word) (payload : List Byte) :
    containerSize (headerBytes .little size ++ payload) = size := by
  have hlen : (headerBytes .little size).length = Config.hdrBytes := length_headerBytes .little size
  rw [containerSize, List.take_left' hlen]
  exact headerValue_headerBytes .little size

@[simp] theorem containerPayload_append (size : Word) (payload : List Byte) :
    containerPayload (headerBytes .little size ++ payload) = payload :=
  List.drop_left' (length_headerBytes .little size)

/-! ## The command line (R179) -/

theorem State.finishWith_of_idle (hp : s.host.phase = .idle) (code : Nat) :
    s.finishWith code = { s with host := { s.host with exitCode := some code } } := by
  rw [State.finishWith, ← hp]

/-- Settles O60: the cases of `parseCommandLine`; the turn is the next move of the script. -/
theorem commandLineIsReadAsStated : Obligations.CommandLineIsReadAsStated := by
  refine ⟨fun p q => ⟨rfl, rfl⟩, fun args hargs => ?_, fun c p q hc hd => ?_, fun s args rest hp hsc hbad => ?_⟩
  · unfold parseCommandLine
    split
    · exact absurd rfl hargs
    · rfl
  · rw [parseCommandLine, if_neg hc, if_neg hd]
  · have hidle : ((s.popMove rest).diagnose .badUsage).host.phase = .idle := hp
    rw [hostTurn_idle hp hsc, hostMove, hbad, State.finishWith_of_idle hidle]
    rfl

/-! ## Diagnostics (R180) -/

/-- The state with diagnostics printed. -/
def State.print (s : State) (ds : List Diagnostic) : State :=
  { s with host := { s.host with diags := s.host.diags ++ ds } }

@[simp] theorem State.print_nil (s : State) : s.print [] = s := by simp [State.print]

theorem State.print_append (s : State) (ds ds' : List Diagnostic) : (s.print ds).print ds' = s.print (ds ++ ds') := by
  simp [State.print]

/-! ## The beginning of a sequence (R175 steps 1 to 4, R176 steps 1 to 6) -/

theorem State.not_busy_and_idle_of_hostFree (hf : s.hostFree = true) : s.busy = false ∧ s.host.phase = .idle := by
  simpa [State.hostFree, State.hostOwns] using hf

theorem readWholeFile_some {p : Path} {c : List Byte} (h : findFile s.host.files p = some c) : s.readWholeFile p = (c, s) := by
  simp [State.readWholeFile, h]

theorem readWholeFile_none {p : Path} (h : findFile s.host.files p = none) :
    s.readWholeFile p = ([], s.diagnose .inputUnreadable) := by
  simp [State.readWholeFile, h]

/-- `COMPRESS` of no bytes ends at once (R175 step 2). -/
theorem execCompress_nil {p q : Path} (hf : s.hostFree = true) (h : s.readWholeFile p = ([], t)) :
    execCompress p q s = .next (t.finishWith 0) := by
  simp [execCompress, hf, h]

/-- `DECOMPRESS` of no bytes ends at once (R176 step 2). -/
theorem execDecompress_nil {p q : Path} (hf : s.hostFree = true) (h : s.readWholeFile p = ([], t)) :
    execDecompress p q s = .next (t.finishWith 0) := by
  simp [execDecompress, hf, h]

/-- Fewer bytes than a header are no container (R176 step 3). -/
theorem execDecompress_short {p q : Path} {c : List Byte} (hf : s.hostFree = true) (h : s.readWholeFile p = (c, t))
    (hne : c ≠ []) (hlen : c.length < 8) :
    execDecompress p q s = .next ((t.diagnose .malformedContainer).finishWith 0) := by
  simp [execDecompress, hf, h, hne, show c.length < Config.hdrBytes from hlen]

/-- Settles O53: each file is a case of the two sequences, and no sequence waited before. -/
theorem emptyOrShortInputAborts : Obligations.EmptyOrShortInputAborts := by
  intro s p q hf
  obtain ⟨-, hp⟩ := State.not_busy_and_idle_of_hostFree hf
  have hend : ∀ d, (s.diagnose d).finishWith 0 =
      { s with host := { s.host with exitCode := some 0, diags := s.host.diags ++ [d] } } :=
    fun d => State.finishWith_of_idle (s := s.diagnose d) hp 0
  refine ⟨fun hfile => ?_, fun hfile => ?_, fun c hfile hne hlen => ?_⟩
  · have hread := readWholeFile_some hfile
    rw [← State.finishWith_of_idle hp]
    exact ⟨execCompress_nil hf hread, execDecompress_nil hf hread⟩
  · have hread := readWholeFile_none hfile
    rw [← hend]
    exact ⟨execCompress_nil hf hread, execDecompress_nil hf hread⟩
  · rw [← hend]
    exact execDecompress_short hf (readWholeFile_some hfile) hne hlen

/-- The capacity of R181: twice the size, or the largest value. -/
theorem compressCapacity_eq (n : Nat) : compressCapacity n = BitVec.ofNat 64 (min (2 * n) (2 ^ 64 - 1)) := by
  unfold compressCapacity
  split
  next hfits => rw [Nat.min_eq_left (by omega)]
  next hlarge =>
    rw [Nat.min_eq_right (by omega)]
    rfl

/-- Settles O51: the file has bytes, and not too many, so that the last branch is taken. -/
theorem compressBegins : Obligations.CompressBegins := by
  intro s p q raw hf hfile hne hlen
  simp only [exec, execCompress, hf, readWholeFile_some hfile, Bool.not_true, Bool.false_eq_true, if_false, hne,
    if_neg (Nat.not_le.2 hlen), compressCapacity_eq]
  rfl

/-- Settles O52: the file has a header, so that the last branch is taken, with the header's size and the rest. -/
theorem decompressBegins : Obligations.DecompressBegins := by
  intro s p q size payload hf hfile hlen
  have hheader : 8 ≤ (headerBytes .little size ++ payload).length := by simp
  have hne : headerBytes .little size ++ payload ≠ [] := List.ne_nil_of_length_pos (Nat.lt_of_lt_of_le (by decide) hheader)
  have hnotShort : ¬ (headerBytes .little size ++ payload).length < Config.hdrBytes := Nat.not_lt.2 hheader
  simp only [exec, execDecompress, hf, readWholeFile_some hfile, Bool.not_true, Bool.false_eq_true, if_false, if_neg hne,
    if_neg hnotShort, containerPayload_append, containerSize_append, if_neg (Nat.not_le.2 hlen)]
  rfl

/-- How a sequence with the bytes `bs` to load can begin: it ends at once, or loads them and waits with a command on the ports.
Of the host it changes what it prints and what it waits for only. -/
inductive SequenceStart (s : State) (bs : List Byte) : State → Prop where
  | abort (ph : HostPhase) (ds : List Diagnostic) (code : Option Nat) :
      SequenceStart s bs { s with host := { s.host with phase := ph, diags := ds, exitCode := code } }
  | load (fits : bs.length < 2 ^ 64) (pt : Ports) (ph : HostPhase) (ds : List Diagnostic) :
      SequenceStart s bs
        { s with inp := s.inp.writeBytes 0 bs, ports := pt, host := { s.host with phase := ph, diags := ds } }

/-- `read_whole_file` at most prints. -/
theorem readWholeFile_prints (s : State) (p : Path) : ∃ ds, (s.readWholeFile p).2 = s.print ds := by
  rcases readWholeFile_cases s p with e | e
  · exact ⟨[], e.trans s.print_nil.symm⟩
  · exact ⟨[.inputUnreadable], e⟩

theorem execCompress_start {p q : Path} (h : execCompress p q s = .next t) : SequenceStart s (s.readWholeFile p).1 t := by
  obtain ⟨ds, hread⟩ := readWholeFile_prints s p
  simp only [execCompress, hread] at h
  split_ifs at h with hf hnil hlong
  · cases h
    exact .abort _ _ _
  · cases h
    exact .load (Nat.lt_of_not_le hlong) _ _ _

theorem execDecompress_start {p q : Path} (h : execDecompress p q s = .next t) :
    SequenceStart s (containerPayload (s.readWholeFile p).1) t := by
  obtain ⟨ds, hread⟩ := readWholeFile_prints s p
  simp only [execDecompress, hread] at h
  split_ifs at h with hf hnil hshort hlong
  · cases h
    exact .abort _ _ _
  · cases h
    exact .abort _ _ _
  · cases h
    exact .load (Nat.lt_of_not_le hlong) _ _ _

/-- A byte behind those written is as before. -/
theorem Memory.read_writeBytes_of_le {space : Space} {bs : List Byte} {m : Memory} {a b : Nat} (hfits : a + bs.length ≤ 2 ^ 64)
    (hwf : m.wf = true) (h : a + bs.length ≤ b) : (m.writeBytes a bs).read space b = m.read space b := by
  rw [Memory.read_writeBytes space bs m a hfits hwf, if_pos (Nat.le_of_add_right_le h),
    List.getD_eq_default _ _ (Nat.le_sub_of_add_le' h)]

theorem SequenceStart.frame {bs : List Byte} (h : SequenceStart s bs t) (hwf : s.inp.wf = true) :
    s.sameRegs t ∧ t.out = s.out ∧ t.host.files = s.host.files ∧ t.host.script = s.host.script ∧
      ∀ a : Nat, bs.length ≤ a → t.inp.read .inp a = s.inp.read .inp a := by
  have hregs : s.sameRegs s := ⟨rfl, rfl, rfl, rfl, rfl, rfl, rfl, rfl, rfl, rfl, rfl, rfl⟩
  cases h with
  | abort ph ds code => exact ⟨hregs, rfl, rfl, rfl, fun _ _ => rfl⟩
  | load fits pt ph ds =>
    exact ⟨hregs, rfl, rfl, rfl, fun a ha => Memory.read_writeBytes_of_le (by omega) hwf (by omega)⟩

/-- Settles O27: both sequences begin in one of the two ways of `SequenceStart`. -/
theorem hostSequencesFrame : Obligations.HostSequencesFrame :=
  fun _ _ _ _ hwf => ⟨fun h => (execCompress_start h).frame hwf, fun h => (execDecompress_start h).frame hwf⟩

/-! ## The end of a sequence (R175 steps 5 and 6, R176 steps 7 to 9) -/

theorem reportCapacity_eq_print (s : State) : s.reportCapacity = s.print (if s.capExceeded then [.capacityExceeded] else []) := by
  unfold State.reportCapacity
  split
  · rfl
  · rw [State.print_nil]

theorem reportSize_eq_print (s : State) (size : Word) :
    s.reportSize size = s.print (if s.written ≠ size then [.sizeMismatch] else []) := by
  unfold State.reportSize
  split
  · rfl
  · rw [State.print_nil]

/-- The state after a sequence that wrote a file and printed diagnostics. -/
def State.ended (s : State) (q : Path) (bytes : List Byte) (ds : List Diagnostic) : State :=
  { s with
    host :=
      { s.host with
        phase := .idle, exitCode := some 0, files := putFile s.host.files q bytes, diags := s.host.diags ++ ds } }

/-- The last steps of either sequence: a path that can be written is written (R178). -/
theorem writeWholeFile_eq_ended {q : Path} (hq : q ∉ s.host.unwritable) (bytes : List Byte) (ds : List Diagnostic) :
    ((s.print ds).finishWith 0).writeWholeFile q bytes = .next (s.ended q bytes ds) :=
  if_neg hq

theorem finishCompress_eq {q : Path} (hq : q ∉ s.host.unwritable) (n : Nat) :
    finishCompress q n s =
      .next
        (s.ended q (headerBytes .little (BitVec.ofNat 64 n) ++ s.out.bytes .out s.written.toNat)
          (if s.capExceeded then [.capacityExceeded] else [])) := by
  rw [finishCompress, reportCapacity_eq_print]
  exact writeWholeFile_eq_ended hq _ _

theorem finishDecompress_eq {q : Path} (hq : q ∉ s.host.unwritable) (size : Word) :
    finishDecompress q size s =
      .next
        (s.ended q (s.out.bytes .out s.written.toNat)
          ((if s.capExceeded then [.capacityExceeded] else []) ++ (if s.written ≠ size then [.sizeMismatch] else []))) := by
  rw [finishDecompress, reportCapacity_eq_print, reportSize_eq_print, State.print_append]
  exact writeWholeFile_eq_ended hq _ _

/-- In `DONE` the turn drives the ports, if that is the next move, and ends the waiting `COMPRESS`. -/
theorem hostTurn_compress_done {q : Path} {n : Nat} (hp : s.host.phase = .compress q n) (w : s.ports.start = false)
    (hd : s.done = true) (hq : q ∉ s.host.unwritable) :
    hostTurn s =
      .next
        (s.driveNext.ended q (headerBytes .little (BitVec.ofNat 64 n) ++ s.out.bytes .out s.written.toNat)
          (if s.capExceeded then [.capacityExceeded] else [])) := by
  have hturn : hostTurn s = finishCompress q n s.driveNext := by simp [hostTurn, hp, w, hd]
  rw [hturn, finishCompress_eq (by simpa using hq), State.written, State.written, State.driveNext_out, State.driveNext_wpos,
    State.driveNext_capExceeded]

/-- In `DONE` the turn drives the ports, if that is the next move, and ends the waiting `DECOMPRESS`. -/
theorem hostTurn_decompress_done {q : Path} {size : Word} (hp : s.host.phase = .decompress q size)
    (w : s.ports.start = false) (hd : s.done = true) (hq : q ∉ s.host.unwritable) :
    hostTurn s =
      .next
        (s.driveNext.ended q (s.out.bytes .out s.written.toNat)
          ((if s.capExceeded then [.capacityExceeded] else []) ++ (if s.written ≠ size then [.sizeMismatch] else []))) := by
  have hturn : hostTurn s = finishDecompress q size s.driveNext := by simp [hostTurn, hp, w, hd]
  rw [hturn, finishDecompress_eq (by simpa using hq), State.written, State.written, State.driveNext_out, State.driveNext_wpos,
    State.driveNext_capExceeded]

/-- What a turn that ends a sequence leaves as it was, also where the host drives the ports in it. -/
theorem State.ended_driveNext (s : State) (q : Path) (bytes : List Byte) (ds : List Diagnostic) :
    let t := s.driveNext.ended q bytes ds
    s.sameRegs t ∧ t.inp = s.inp ∧ t.out = s.out ∧ t.host.phase = .idle ∧ t.host.exitCode = some 0 ∧
      findFile t.host.files q = some bytes ∧ (∀ p, p ≠ q → findFile t.host.files p = findFile s.host.files p) ∧
      t.host.diags = s.host.diags ++ ds := by
  simp +contextual [State.ended, State.sameRegs, findFile_putFile]

/-- Settles O55: the turn is `hostTurn_compress_done`, and what it leaves is `ended_driveNext`. -/
theorem compressFinishes : Obligations.CompressFinishes :=
  fun s _ _ hp w hd hq => ⟨_, hostTurn_compress_done hp w hd hq, s.ended_driveNext _ _ _⟩

/-- Settles O56: the turn is `hostTurn_decompress_done`, and what it leaves is `ended_driveNext`. -/
theorem decompressFinishes : Obligations.DecompressFinishes := by
  intro s q size hp w hd hq
  rw [List.append_assoc]
  exact ⟨_, hostTurn_decompress_done hp w hd hq, s.ended_driveNext _ _ _⟩

end Sys2Proof.Machine

/-! The two host sequences from their beginning to their end (43_host_container.md R175, R176, R185). The steps of the system beside
a sequence that waits follow the steps of the block; what the block computes is O37 and O38, and what the last turn writes is
`hostTurn_compress_done` and `hostTurn_decompress_done`. -/

namespace Sys2Proof.Machine

variable {s t u : State}

/-! ## The system follows the block -/

/-- A sequence waits, `rst` is low, and the host's next move is not to drive the ports. -/
structure State.Waits (s : State) : Prop where
  phase : s.host.phase ≠ .idle
  rst : s.ports.rst = false
  script : ∀ levels rest, s.host.script ≠ .drive levels :: rest

theorem BlockMove.keeps_waits (h : BlockMove s t) (hw : s.Waits) : t.Waits := by
  obtain ⟨-, hports, hhost⟩ := h.keeps
  exact ⟨hhost ▸ hw.phase, hports ▸ hw.rst, hhost ▸ hw.script⟩

theorem step_of_move (h : BlockMove s t) : step s = hostTurn t := by
  simp only [step, (blockStep_iff s t).2 h]

/-- The host does nothing in a turn that finds the block busy. -/
theorem State.Waits.hostTurn_busy (hw : s.Waits) (w : s.ports.start = false) (b : s.busy = true) : hostTurn s = .next s :=
  (hostTurn_waits s hw.phase w b).trans (whileWaiting_busy s b hw.script)

theorem BlockMove.ne_idle (h : BlockMove s t) (r : s.ports.rst = false) (hn : s.fsm ≠ .idle) : t.fsm ≠ .idle :=
  fun e => hn (Fsm.eq_idle_of_idle_mem_successors (e ▸ h.fsm_mem_successors r))

theorem State.busy_of_ne (hidle : s.fsm ≠ .idle) (hdone : s.fsm ≠ .done) : s.busy = true := by
  rw [← Bool.not_eq_false, s.busy_eq_false_iff]
  exact not_or.2 ⟨hidle, hdone⟩

/-- Beside an operation that ends, the host does nothing before the turn that finds `done`. -/
theorem State.Waits.run_endsIn (hw : s.Waits) (w : s.ports.start = false) (hn : s.fsm ≠ .idle) {k : Nat}
    (hend : s.endsIn (k + 1) t) : core.run (k + 1) s = hostTurn t := by
  induction k generalizing s with
  | zero =>
    obtain ⟨-, u, hmove, hrun, -⟩ := State.endsIn_succ hend
    cases hrun
    rw [core_run_succ, step_of_move hmove]
    cases hostTurn t <;> rfl
  | succ k ih =>
    obtain ⟨-, u, hmove, hend'⟩ := State.endsIn_succ hend
    obtain ⟨hnotDone, -⟩ := State.endsIn_succ hend'
    obtain ⟨-, hports, -⟩ := hmove.keeps
    have hw' := hmove.keeps_waits hw
    have hn' := hmove.ne_idle hw.rst hn
    rw [core_run_succ, step_of_move hmove, hw'.hostTurn_busy (hports ▸ w) (State.busy_of_ne hn' hnotDone)]
    exact ih hw' (hports ▸ w) hn' hend'

/-- An operation under way ends alike with `start` lowered. -/
theorem State.endsIn_lowerStart (hn : s.fsm ≠ .idle) (r : s.ports.rst = false) {k : Nat} (hend : s.endsIn k t) :
    s.lowerStart.endsIn k t.lowerStart := by
  induction k generalizing s with
  | zero =>
    obtain ⟨hrun, hdone, -⟩ := hend
    cases hrun
    exact State.endsIn_zero hdone
  | succ k ih =>
    obtain ⟨hnotDone, u, hmove, hend'⟩ := State.endsIn_succ hend
    obtain ⟨-, hports, -⟩ := hmove.keeps
    have hlow : BlockMove s.lowerStart { u with ports := s.lowerStart.ports } :=
      hmove.with_ports (State.busy_of_ne hn hnotDone) r r
    have hnext : { u with ports := s.lowerStart.ports } = u.lowerStart := by
      rw [State.lowerStart_ports, ← hports]
      rfl
    rw [hnext] at hlow
    exact hlow.endsIn hnotDone (ih (hmove.ne_idle r hn) (hports ▸ r) hend')

/-- What an operation leaves alone until it ends. -/
theorem State.endsIn_keeps {k : Nat} (hend : s.endsIn k t) :
    t.inp = s.inp ∧ t.ports = s.ports ∧ t.host = s.host ∧ (s.out.wf = true → t.out.wf = true) := by
  induction k generalizing s with
  | zero =>
    obtain ⟨hrun, -, -⟩ := hend
    cases hrun
    exact ⟨rfl, rfl, rfl, id⟩
  | succ k ih =>
    obtain ⟨-, u, hmove, hend'⟩ := State.endsIn_succ hend
    obtain ⟨hinp, hports, hhost⟩ := hmove.keeps
    obtain ⟨hinp', hports', hhost', hwf⟩ := ih hend'
    exact ⟨hinp'.trans hinp, hports'.trans hports, hhost'.trans hhost, hwf ∘ hmove.keeps_outWf⟩

theorem State.Waits.lowerStart (hw : s.Waits) : s.lowerStart.Waits := ⟨hw.phase, hw.rst, hw.script⟩

/-- From the command on the ports to the turn that finds `done`: the block accepts the command, the host lowers `start` (R238), and
nothing but the operation goes on. -/
theorem State.Waits.run_operation (hw : s.Waits) (w : s.ports.start = true) (b : s.busy = false) {k : Nat}
    (hstep : blockStep s = .next u) (hend : u.endsIn k t) : ∃ j, core.run j s = hostTurn t.lowerStart := by
  have hmove := (blockStep_iff s u).1 hstep
  obtain ⟨-, hports, -⟩ := hmove.keeps
  have hw' := hmove.keeps_waits hw
  have hfsm : u.fsm ∈ [Fsm.encFetch, .decReadV] := by
    rw [hmove.unique ((blockStep_iff _ _).1 (blockStep_accept s b hw.rst w))]
    exact s.accept_fsm_mem _ _ _
  have hidle : u.fsm ≠ .idle := fun e => absurd (e ▸ hfsm) (by decide)
  have hdone : u.fsm ≠ .done := fun e => absurd (e ▸ hfsm) (by decide)
  have hturn : hostTurn u = .next u.lowerStart := by
    rw [hostTurn_lowers u hw'.phase (hports ▸ w)]
    exact whileWaiting_busy u.lowerStart (State.busy_of_ne hidle hdone) hw'.script
  cases k with
  | zero =>
    obtain ⟨hrun, hend', -⟩ := hend
    cases hrun
    exact absurd hend' hdone
  | succ k =>
    refine ⟨k + 1 + 1, ?_⟩
    rw [core_run_succ, step_of_move hmove, hturn]
    exact hw'.lowerStart.run_endsIn rfl hidle (State.endsIn_lowerStart hidle hw'.rst hend)

/-! ## A sequence from its beginning on -/

/-- The host can begin a sequence and sees it through: it owns the buffers, which are in canonical form, and its next move is not to
drive the ports. -/
structure State.CanBegin (s : State) : Prop where
  free : s.hostFree = true
  inWf : s.inp.wf = true
  outWf : s.out.wf = true
  script : ∀ levels rest, s.host.script ≠ .drive levels :: rest

/-- The state in which a sequence that loaded `bs` waits, with its command on the ports. -/
def State.begun (s : State) (bs : List Byte) (op : BitVec 1) (outCap : Word) (ph : HostPhase) : State :=
  ((s.loadIn bs).driveCommand op (BitVec.ofNat 64 bs.length) outCap).await ph

/-- After a sequence ends in `DONE` the host can begin another. -/
theorem State.ended_canBegin (f : s.fsm = .done) (hi : s.inp.wf = true) (ho : s.out.wf = true)
    (hsc : ∀ levels rest, s.host.script ≠ .drive levels :: rest) (q : Path) (bytes : List Byte) (ds : List Diagnostic) :
    (s.ended q bytes ds).CanBegin where
  free := by
    have hown : s.hostOwns = true := s.hostOwns_iff.2 (s.busy_eq_false_iff.2 (.inr f))
    exact Bool.and_eq_true_iff.2 ⟨hown, rfl⟩
  inWf := hi
  outWf := ho
  script := hsc

@[simp] theorem State.begun_outCap (s : State) (bs : List Byte) (op : BitVec 1) (c : Word) (ph : HostPhase) :
    (s.begun bs op c ph).ports.outCap = c := rfl

section begun

variable {bs : List Byte} {op : BitVec 1} {c : Word} {ph : HostPhase}

theorem State.CanBegin.not_busy_begun (h : s.CanBegin) : (s.begun bs op c ph).busy = false :=
  (State.not_busy_and_idle_of_hostFree h.free).1

theorem State.CanBegin.bytes_begun (h : s.CanBegin) (hlen : bs.length < 2 ^ 64) :
    (s.begun bs op c ph).inp.bytes .inp bs.length = bs :=
  Memory.bytes_writeBytes .inp bs s.inp (Nat.le_of_lt hlen) h.inWf

/-- A sequence reaches a turn that finds `done`, with the host as it was and nothing to drive; after its end the host can begin
another. -/
theorem State.CanBegin.run_begun (h : s.CanBegin) (hlen : bs.length < 2 ^ 64) (hph : ph ≠ .idle) {k : Nat}
    (hstep : blockStep (s.begun bs op c ph) = .next u) (hend : u.endsIn k t) :
    (∃ j, core.run j (s.begun bs op c ph) = hostTurn t.lowerStart) ∧ t.lowerStart.done = true ∧
      t.host = { s.host with phase := ph } ∧ t.lowerStart.driveNext = t.lowerStart ∧
      ∀ q bytes ds, (t.lowerStart.ended q bytes ds).CanBegin := by
  have hwaits : (s.begun bs op c ph).Waits := ⟨hph, rfl, h.script⟩
  have hrun := hwaits.run_operation rfl h.not_busy_begun hstep hend
  have hmove := (blockStep_iff _ u).1 hstep
  obtain ⟨hinp, -, hhost⟩ := hmove.keeps
  obtain ⟨hinp', -, hhost', hwf⟩ := State.endsIn_keeps hend
  obtain ⟨-, hdone, -⟩ := hend
  have hi : t.inp.wf = true := by
    rw [hinp', hinp]
    exact Memory.writeBytes_wf bs s.inp 0 (by omega) h.inWf
  have ho : t.out.wf = true := hwf (hmove.keeps_outWf h.outWf)
  have hheld : t.host = { s.host with phase := ph } := hhost'.trans hhost
  have hsc : ∀ levels rest, t.lowerStart.host.script ≠ .drive levels :: rest := by
    rw [State.lowerStart_host, hheld]
    exact h.script
  exact ⟨hrun, t.done_iff.2 hdone, hheld, driveNext_none _ hsc, State.ended_canBegin (s := t.lowerStart) hdone hi ho hsc⟩

end begun

/-- `COMPRESS` run to its end writes the container of the file and prints nothing. -/
theorem State.CanBegin.compress_run (h : s.CanBegin) {p q : Path} {raw : List Byte} (hfile : findFile s.host.files p = some raw)
    (hne : raw ≠ []) (hlen : 2 * raw.length < 2 ^ 64) (hq : q ∉ s.host.unwritable) (hexec : exec (.compress p q) s = .next u) :
    ∃ k t, core.run k u = .next t ∧ t.CanBegin ∧
      t.host = (s.ended q (headerBytes .little (BitVec.ofNat 64 raw.length) ++ full raw) []).host := by
  have hlen' : raw.length < 2 ^ 64 := by omega
  have hbegin := compressBegins s p q raw h.free hfile hne hlen'
  rw [Nat.min_eq_left (by omega)] at hbegin
  cases hexec.symm.trans hbegin
  obtain ⟨v, k, t, hstep, hend, hbytes, -, hflag, -⟩ :=
    encodeComputesEnc (s.begun raw 0 (BitVec.ofNat 64 (2 * raw.length)) (.compress q raw.length)) raw
      h.not_busy_begun rfl rfl rfl hlen' rfl (h.bytes_begun hlen') h.outWf
  obtain ⟨-, -, -, -, hall, -⟩ := encodingFacts raw (2 * raw.length)
  have hcap : (BitVec.ofNat 64 (2 * raw.length)).toNat = 2 * raw.length := by
    rw [BitVec.toNat_ofNat, Nat.mod_eq_of_lt hlen]
  rw [State.begun_outCap, hcap, hall (Nat.le_refl _)] at hbytes hflag
  have hok : t.capExceeded = false := by simpa using hflag
  obtain ⟨⟨j, hrun⟩, hdone, hhost, hdrive, hnext⟩ := h.run_begun hlen' HostPhase.noConfusion hstep hend
  have hturn := hostTurn_compress_done (s := t.lowerStart) (congrArg HostState.phase hhost) rfl hdone (by
    rw [State.lowerStart_host, hhost]
    exact hq)
  rw [← hrun, hdrive] at hturn
  refine ⟨j, _, hturn, hnext _ _ _, ?_⟩
  simp only [State.ended, State.lowerStart_host, hhost, State.lowerStart_out, State.written, State.lowerStart_wpos, hbytes,
    State.lowerStart_capExceeded, hok]
  rfl

/-- Settles O57: what `compress_run` says of the host in the end. -/
theorem compressWritesTheContainer : Obligations.CompressWritesTheContainer := by
  intro s s₁ p q raw hf hi ho hfile hne hlen hq hsc hexec
  obtain ⟨k, t, hrun, -, hhost⟩ := State.CanBegin.compress_run ⟨hf, hi, ho, hsc⟩ hfile hne hlen hq hexec
  refine ⟨k, t, hrun, ?_⟩
  rw [hhost]
  exact ⟨rfl, rfl, by simp [State.ended, findFile_putFile], List.append_nil _⟩

/-- Settles O58: the block computes `dec` of the payload (O38), and the turn that finds `done` writes it. -/
theorem decompressWritesTheDecoding : Obligations.DecompressWritesTheDecoding := by
  intro s s₁ p q size payload hf hi ho hfile hlen hq hsc hexec
  have h : s.CanBegin := ⟨hf, hi, ho, hsc⟩
  cases hexec.symm.trans (decompressBegins s p q size payload hf hfile hlen)
  obtain ⟨u, k, t, hstep, hend, hbytes, hw, hflag, -⟩ :=
    decodeComputesDec (s.begun payload 1 size (.decompress q size)) payload
      h.not_busy_begun rfl rfl rfl hlen rfl (h.bytes_begun hlen) ho
  rw [State.begun_outCap] at hbytes hw hflag
  obtain ⟨⟨j, hrun⟩, hdone, hhost, hdrive, -⟩ := h.run_begun hlen HostPhase.noConfusion hstep hend
  have hturn := hostTurn_decompress_done (s := t.lowerStart) (congrArg HostState.phase hhost) rfl hdone (by
    rw [State.lowerStart_host, hhost]
    exact hq)
  rw [← hrun, hdrive] at hturn
  have hlength : t.wpos = size ↔ (dec payload size.toNat).1.length = size.toNat := by rw [← hw, BitVec.toNat_inj]
  refine ⟨j, _, hturn, rfl, rfl, ?_, ?_⟩
  · simp [State.ended, findFile_putFile, State.written, hbytes]
  · simp [State.ended, hhost, State.written, hflag, hlength]

/-- Settles O59: the container that COMPRESS leaves is the input of DECOMPRESS, and `dec` of `full` is the file. -/
theorem containersKeepTheFile : Obligations.ContainersKeepTheFile := by
  intro s s₁ p q r raw hf hi ho hfile hne hlen hq hr hsc hexec
  obtain ⟨k, t, hrun, ht, hhost⟩ := State.CanBegin.compress_run ⟨hf, hi, ho, hsc⟩ hfile hne hlen hq hexec
  have hsize : (BitVec.ofNat 64 raw.length).toNat = raw.length := by
    rw [BitVec.toNat_ofNat, Nat.mod_eq_of_lt (by omega)]
  have hpairs := length_full raw
  have hcount := pairCount_le_length raw
  have hlen' : (full raw).length < 2 ^ 64 := by omega
  have hcontainer : findFile t.host.files q = some (headerBytes .little (BitVec.ofNat 64 raw.length) ++ full raw) := by
    simp [hhost, State.ended, findFile_putFile]
  have hbegin := decompressBegins t q r _ _ ht.free hcontainer hlen'
  have hr' : r ∉ t.host.unwritable := by
    rw [hhost]
    exact hr
  obtain ⟨j, u, hrun', hphase, -, hwritten, hdiags⟩ :=
    decompressWritesTheDecoding t _ q r _ _ ht.free ht.inWf ht.outWf hcontainer hlen' hr' ht.script hbegin
  rw [hsize, dec_full (Nat.le_refl _)] at hwritten hdiags
  refine ⟨k, t, _, j, u, hrun, hbegin, hrun', hphase, hwritten, ?_⟩
  simpa [hhost, State.ended] using hdiags

end Sys2Proof.Machine

/-! The exception CapacityExceeded (60_exceptions.md). The rows `raiseEnc` and `raiseDec` of `BlockMove` are its two causes; no
other row sets the flag. -/

namespace Sys2Proof.Machine

variable {s t : State}

/-- R201, R202: what holds of a state whose step raises CapacityExceeded. -/
def State.Raises (s : State) : Prop :=
  s.ports.rst = false ∧ (s.fsm = .encEmitV ∧ s.noRoomForPair = true ∨ s.fsm = .decCheck ∧ s.noRoomForRun = true)

theorem State.raises_iff (s : State) (h : s.wpos.toNat ≤ s.cap.toNat) :
    s.Raises ↔ s.ports.rst = false ∧
      (s.fsm = .encEmitV ∧ s.cap.toNat - s.wpos.toNat < 2 ∨
        s.fsm = .decCheck ∧ s.cap.toNat < s.wpos.toNat + s.pairCnt.toNat) := by
  have hrun : s.noRoomForRun = true ↔ s.cap.toNat < s.wpos.toNat + s.pairCnt.toNat := by
    rw [noRoomForRun_iff s h]
    omega
  rw [State.Raises, noRoomForPair_iff s h, hrun]

theorem State.Raises.move (h : s.Raises) : BlockMove s s.raiseCapacityExceeded := by
  obtain ⟨r, ⟨f, n⟩ | ⟨f, n⟩⟩ := h
  · exact .raiseEnc r f n
  · exact .raiseDec r f n

/-- Two rows set the flag: the other rows clear it or keep it at 0. -/
theorem BlockMove.raises_of_flag (h : BlockMove s t) (c : s.capExceeded = false) (c' : t.capExceeded = true) : s.Raises := by
  cases h with
  | raiseEnc r f n => exact ⟨r, .inl ⟨f, n⟩⟩
  | raiseDec r f n => exact ⟨r, .inr ⟨f, n⟩⟩
  | reset r => cases c'
  | accept r f w => cases c'
  | _ => exact absurd (c.symm.trans c') Bool.false_ne_true

/-- Settles O28: a set flag comes of one of the two causes, and a state with such a cause has the raising move only. -/
theorem raiseIsPreciseAndOnlyThere : Obligations.RaiseIsPreciseAndOnlyThere := by
  intro s t hroom c hstep
  have hm := (blockStep_iff s t).1 hstep
  have hraise : s.Raises → t = s.raiseCapacityExceeded := fun h => hm.unique h.move
  have hset : t.capExceeded = true ↔ s.Raises :=
    ⟨hm.raises_of_flag c, fun h => congrArg State.capExceeded (hraise h)⟩
  exact ⟨hset.trans (s.raises_iff hroom), fun c' => hraise (hset.1 c')⟩

end Sys2Proof.Machine

/-! The reset step (70_reset_and_hazards.md R230): the row `reset` of `BlockMove`, which leads to the same state again for as long as
`rst` is 1. -/

namespace Sys2Proof.Machine

variable {s : State}

theorem blockStep_of_rst (r : s.ports.rst = true) : blockStep s = .next s.resetRegs :=
  (blockStep_iff s _).2 (.reset r)

/-- Nothing of the registers is left for a second reset step to change. -/
theorem State.resetRegs_resetRegs (s : State) : s.resetRegs.resetRegs = s.resetRegs := rfl

/-- R230: with `rst` held at 1 every number of steps, one or more, leads where one step does. -/
theorem blockRun_succ_of_rst (r : s.ports.rst = true) (k : Nat) : blockRun (k + 1) s = .next s.resetRegs := by
  induction k generalizing s with
  | zero => simp only [blockRun, blockStep_of_rst r]
  | succ k ih =>
    calc blockRun (k + 2) s
      _ = blockRun (k + 1) s.resetRegs := by rw [blockRun, blockStep_of_rst r]
      _ = .next s.resetRegs.resetRegs := ih r
      _ = .next s.resetRegs := by rw [State.resetRegs_resetRegs]

/-- In `IDLE` with `rst` at 0 the step is `IDLE_WAIT` (R77). -/
theorem blockStep_of_idle (r : s.ports.rst = false) (f : s.fsm = .idle) : blockStep s = exec .idleWait s :=
  blockStep_of_fetch r (by rw [State.fetch_eq, f])

/-- Settles O2: the state is `resetRegs`, which every further reset step keeps and which is in `IDLE` whatever the ports say. -/
theorem resetStepClearsEveryRegister : Obligations.ResetStepClearsEveryRegister := by
  intro s r
  refine ⟨s.resetRegs, blockStep_of_rst r, rfl, rfl, rfl, rfl, rfl, rfl, rfl, rfl, rfl, rfl, rfl, rfl, rfl, rfl, rfl, rfl,
    blockRun_succ_of_rst r, fun p hp => ?_⟩
  exact blockStep_of_idle (s := { s.resetRegs with ports := p }) hp rfl

end Sys2Proof.Machine
